-- ==== Sys2Proof/Word.lean ====
section
/-!
DEFINITION. The two word types of the block. A byte of the buffer has 8 bits (20_memory.md R50). `VALUE_W`, the
width of a decoded value, is 32 bits (00_scope.md R9, R11: every value is unsigned).
-/

namespace Sys2Proof

/-- `VALUE_W` = 32 bits (00_scope.md R9). -/
abbrev Word := BitVec 32

/-- One byte of the buffer (20_memory.md R50). -/
abbrev Byte := BitVec 8

end Sys2Proof
end

