-- ==== Sys2Proof/Config.lean ====
section
/-!
DEFINITION. What is fixed for one instance of the block (00_scope.md R9), and the one free value.
-/

namespace Sys2Proof

/-- The configuration of an instance. `nalSkipBits` is `NAL_SKIP_BITS`: OPEN, legal 0 to 32 (R9, D4). It is a field of
`State` that nothing writes, so a statement over all states holds for all its legal values (log entry 1). -/
structure Config where
  nalSkipBits : Fin 33
  deriving DecidableEq, Repr

/-- The default of R9: `NAL_SKIP_BITS = 32`. -/
def Config.default : Config := ⟨32⟩

/-- `COMPAT_SKIP_BITS` (R9): fixed. -/
def compatSkipBits : Nat := 32

/-- `CONSTRAINT_SKIP_BITS` (R9): fixed. -/
def constraintSkipBits : Nat := 16

/-- `READ_MAX` (R9): the largest `n` of one READBITS. -/
def readMax : Nat := 32

/-- `UE_MAX_LZ` (R9): the largest accepted count of leading zeros of a ue(v) code. -/
def ueMaxLz : Nat := 30

/-- FREE VALUE, DESIGN CHOICE (log entry 4): what `LZ` holds after an accepted START and after a reset, which R41 and
R42 leave "unspecified". It has no body: nothing can be proved of the value it gives. -/
opaque Config.freeLz : Nat → BitVec 5

end Sys2Proof
end

