-- ==== Sys2Proof/Machine/State.lean ====
section
/-!
DEFINITION. All the state of one instance (10_state.md R20, R33), as plain data, and its value after reset (R41).
-/

namespace Sys2Proof.Machine

/-- `PHASE` (10_state.md R30). -/
inductive Phase where
  | idle
  | busy
  | done
  | error
  deriving DecidableEq, Repr

/-- The two error kinds (60_exceptions.md R190 to R192). `ERR = NONE` is the absence of one. -/
inductive ErrKind where
  | bufferUnderrun
  | codeTooLong
  deriving DecidableEq, Repr

/-- The states of the sequencer, the values of `STEP` (10_state.md R25). -/
inductive StepName where
  | s0 | s1 | s2 | s3 | s4 | s5 | s6 | s7 | s8 | s9 | s10 | s11
  | s12 | s13 | s14 | s15 | s16 | s17 | s18 | s19 | s20 | s21 | s22 | s23
  deriving DecidableEq, Repr

/-- The names of the fourteen field registers (10_state.md R21). -/
inductive FieldReg where
  | pspace | tier | pidc | level | chroma | picw | pich | cwf
  | cleft | cright | ctop | cbot | bdlm8 | bdcm8
  deriving DecidableEq, Repr

/-- The fourteen field registers with their widths (10_state.md R21). `none` is the spec's own "holds no value"
(00_scope.md R13, R22, R41), not a missing reset value (log entry 2). -/
structure Fields where
  pspace : Option (BitVec 2)
  tier   : Option (BitVec 1)
  pidc   : Option (BitVec 5)
  level  : Option (BitVec 8)
  chroma : Option Word
  picw   : Option Word
  pich   : Option Word
  cwf    : Option (BitVec 1)
  cleft  : Option Word
  cright : Option Word
  ctop   : Option Word
  cbot   : Option Word
  bdlm8  : Option Word
  bdcm8  : Option Word
  deriving DecidableEq, Repr

/-- Every field register without a value (10_state.md R41, R42). -/
def Fields.empty : Fields :=
  ⟨none, none, none, none, none, none, none, none, none, none, none, none, none, none⟩

/-- The nine result registers `OUT.*` with their widths (10_state.md R28). -/
structure SpsInfo where
  width           : Word
  height          : Word
  profileSpace    : BitVec 2
  tierFlag        : BitVec 1
  profileIdc      : BitVec 5
  levelIdc        : BitVec 8
  chromaFormatIdc : Word
  bitDepthLuma    : Word
  bitDepthChroma  : Word
  deriving DecidableEq, Repr

/-- The buffer as the host placed it: (address, byte), addresses strictly rising (20_memory.md R50, R54). -/
abbrev Memory := List Host.Cell

/-- What a byte that is not listed reads as: nothing (U5, log entry 10). -/
def Memory.unlisted : Option Byte := none

/-- The canonical form: addresses strictly rising. No entry can equal what an unlisted address reads as. -/
def Memory.wf : Memory → Bool
  | [] => true
  | [_] => true
  | (a, _) :: (b, y) :: m => decide (a < b) && Memory.wf ((b, y) :: m)

/-- One move of the host (10_state.md R38; the rows of 70_reset_and_hazards.md R230). -/
inductive HostMove where
  /-- Puts a buffer on the byte read port, byte 0 first (R223 (a)). -/
  | place (bytes : List Byte)
  /-- The levels of the ports `rst`, `start`, `len` for one transition (R34). -/
  | clock (rst start : Bool) (len : Word)
  deriving DecidableEq, Repr

/-- The state of one instance, its configuration, and what the host has in store for it. -/
structure State where
  /-- Configuration (R9, R33): nothing writes it. -/
  cfg   : Config
  /-- `PHASE` (R30). -/
  phase : Phase
  /-- `ERR` (R31); `none` is `NONE`. -/
  err   : Option ErrKind
  /-- `STEP` (R25). -/
  step  : StepName
  /-- `OFF` (R24), a natural number as R24 and D15 allow (log entry 6). -/
  off   : Nat
  /-- `LEN` (R26). -/
  len   : Word
  /-- `LZ` (R27). After a UE it keeps the last count: DESIGN CHOICE (log entry 25). -/
  lz    : BitVec 5
  /-- The field registers `x[NAME]` (R21). -/
  x     : Fields
  /-- The result registers `OUT.*` (R28): all nine hold a value or none does (R29, R166). -/
  out   : Option SpsInfo
  /-- The MODEL's own (log entry 5): what READBITS or UE last returned when run as an instruction of its own. -/
  ret   : Option Word
  /-- The buffer on the byte read port (R33, R50): the host's, never written by the block. -/
  mem   : Memory
  /-- The host's coming moves, first one first; none left means that no port is asserted (log entry 7). -/
  host  : List HostMove
  /-- The MODEL's own (log entry 4): how many free values have been drawn. -/
  draws : Nat
  deriving DecidableEq, Repr

/-- Why the machine stops with a fault. -/
inductive Fault where
  /-- S23 (ASSEMBLE) reads a field register that holds no value: 00_scope.md R13 and 93_implementation_defined.md U11 say
  that such a read is a fault; no parse reaches it (R171). Safe. -/
  | noValue (r : FieldReg)
  /-- READBITS or UE needs a byte below `LEN` that the host never placed: `len` exceeds the real buffer, which R225
  forbids and U5 gives no meaning. Safe. -/
  | byteAbsent (addr : Nat)
  /-- `MemRead` at or beyond `LEN` (R52: "no meaning", and "no rule can reach one"). Safe. -/
  | beyondLen (addr : Nat)
  /-- The step function, in `BUSY` with `STEP = S0`: there is no such step to perform (R25; unreachable by R40). Safe. -/
  | noStep
  deriving DecidableEq, Repr

/-- Why something has no meaning. -/
inductive Refusal where
  /-- An instruction that has no meaning yet (raised by `exec` only). Safe. -/
  | notModelled (mnemonic : String)
  /-- READBITS with `n = 0` or `n > 32` (R107, U1). Safe. -/
  | readWidth (n : Nat)
  /-- START with `8*len >= 2^32` while not `BUSY` (R225, U5). Safe. -/
  | lenTooLarge (len : Word)
  /-- The host places a buffer while `BUSY` (R226, U4: "the host agent has no such move"). Unsafe where a host does
  it all the same (log entry 11). -/
  | bufferChanged
  deriving DecidableEq, Repr

/-- The machine right after reset (R41), with the default configuration, no buffer placed and no host move in store.
`LZ` is "unspecified" there: 0 is a DESIGN CHOICE (log entry 3). `ret`, `draws`: DESIGN CHOICE (log entries 5, 4). -/
def State.reset : State where
  cfg   := Config.default
  phase := .idle
  err   := none
  step  := .s0
  off   := 0
  len   := 0
  lz    := 0
  x     := Fields.empty
  out   := none
  ret   := none
  mem   := []
  host  := []
  draws := 0

end Sys2Proof.Machine
end

