-- ==== Sys2Proof/Machine/Ops.lean ====
section
/-!
DEFINITION. The named operations over the buffer and the registers: the byte and bit reads of 20_memory.md, the writes
of each register, the abort (R194), and the three ways a state is made anew: START (R42), reset (R41), a buffer placed.
-/

namespace Sys2Proof.Machine

/-! ## The buffer -/

/-- The byte listed at an address. -/
def Memory.read : Memory → Nat → Option Byte
  | [], _ => Memory.unlisted
  | (a, b) :: m, addr => if a = addr then some b else Memory.read m addr

/-- A buffer laid out from address `base` upwards, its first byte lowest (20_memory.md R54). -/
def Memory.ofBytes : Nat → List Byte → Memory
  | _, [] => []
  | base, b :: bs => (base, b) :: Memory.ofBytes (base + 1) bs

/-- `MemRead(addr, 1)` (20_memory.md R52): defined only for `addr < LEN`, and only where the host placed a byte. -/
def State.memRead (s : State) (addr : Nat) : Except Fault Byte :=
  if addr < s.len.toNat then
    match s.mem.read addr with
    | some b => .ok b
    | none => .error (.byteAbsent addr)
  else .error (.beyondLen addr)

/-- The bit index inside its byte of stream bit `k` (00_scope.md R10): bit 7 first. -/
def bitIndex (k : Nat) : Nat := 7 - k % 8

/-- `bit(k)`, stream bit `k` (20_memory.md R55). -/
def State.bit (s : State) (k : Nat) : Except Fault Bool :=
  match s.memRead (k / 8) with
  | .ok b => .ok (b.getLsbD (bitIndex k))
  | .error f => .error f

/-- The next lower bit of a value read most significant bit first: `(v << 1) | b` (R56, R100). -/
def shiftIn (v : Word) (b : Bool) : Word := (v <<< 1) ||| (BitVec.ofBool b).setWidth 32

/-- `n` bits from stream bit `k` on, shifted into `v` (the loop of R100). -/
def State.bits (s : State) : Nat → Nat → Word → Except Fault Word
  | 0, _, v => .ok v
  | n + 1, k, v =>
    match s.bit k with
    | .ok b => s.bits n (k + 1) (shiftIn v b)
    | .error f => .error f

/-! ## Registers -/

/-- `OFF <- v`. -/
def State.setOff (s : State) (v : Nat) : State := { s with off := v }

/-- `LZ <- v`. -/
def State.setLz (s : State) (v : BitVec 5) : State := { s with lz := v }

/-- `pc <- st`: the sequencer's next state (R12, R25). -/
def State.goto (s : State) (st : StepName) : State := { s with step := st }

/-- The value an operation run by itself delivers (log entry 5). -/
def State.setRet (s : State) (v : Word) : State := { s with ret := some v }

/-- `x[r] <- v[width(r)-1 : 0]` (R142), each register at its width of R21. -/
def Fields.write (f : Fields) (r : FieldReg) (v : Word) : Fields :=
  match r with
  | .pspace => { f with pspace := some (v.setWidth 2) }
  | .tier => { f with tier := some (v.setWidth 1) }
  | .pidc => { f with pidc := some (v.setWidth 5) }
  | .level => { f with level := some (v.setWidth 8) }
  | .chroma => { f with chroma := some v }
  | .picw => { f with picw := some v }
  | .pich => { f with pich := some v }
  | .cwf => { f with cwf := some (v.setWidth 1) }
  | .cleft => { f with cleft := some v }
  | .cright => { f with cright := some v }
  | .ctop => { f with ctop := some v }
  | .cbot => { f with cbot := some v }
  | .bdlm8 => { f with bdlm8 := some v }
  | .bdcm8 => { f with bdcm8 := some v }

/-- `x[r] <- v`. -/
def State.writeField (s : State) (r : FieldReg) (v : Word) : State := { s with x := s.x.write r v }

/-- A step's destination, if it has one (R142); an element without one is kept nowhere (R23). -/
def State.writeDest (s : State) (dest : Option FieldReg) (v : Word) : State :=
  match dest with
  | some r => s.writeField r v
  | none => s

/-- A read of a field register: a fault where it holds no value, as 00_scope.md R13 ("A model should make such a read a
fault, not a zero") and 93_implementation_defined.md U11 ("never `any value` that a proof could use, never zero") say. -/
def need {α : Type} (r : FieldReg) : Option α → Except Fault α
  | some v => .ok v
  | none => .error (.noValue r)

/-- `OUT <- r` and `PHASE <- DONE` in one transition (R166). -/
def State.complete (s : State) (r : SpsInfo) : State := { s with out := some r, phase := .done }

/-- The number of a sequencer state: S`i` has `i` (R25). -/
def StepName.index : StepName → Nat
  | .s0 => 0
  | .s1 => 1
  | .s2 => 2
  | .s3 => 3
  | .s4 => 4
  | .s5 => 5
  | .s6 => 6
  | .s7 => 7
  | .s8 => 8
  | .s9 => 9
  | .s10 => 10
  | .s11 => 11
  | .s12 => 12
  | .s13 => 13
  | .s14 => 14
  | .s15 => 15
  | .s16 => 16
  | .s17 => 17
  | .s18 => 18
  | .s19 => 19
  | .s20 => 20
  | .s21 => 21
  | .s22 => 22
  | .s23 => 23

/-- `STEP` as the 5-bit register it is (R25). -/
def StepName.code (st : StepName) : BitVec 5 := BitVec.ofNat 5 st.index

/-! ## The abort, and what leaves `ERROR` -/

/-- The abort: error kind `k` raised in the current step (60_exceptions.md R194). `STEP`, `OFF` and the field registers
stay as they are, and `OUT.*` hold no value because START removed them. Nothing is saved elsewhere. -/
def State.abort (s : State) (k : ErrKind) : State := { s with phase := .error, err := some k }

/-- An accepted START (10_state.md R42), the one way from `ERROR` into a new parse: there is no return from an error
(R196). `LZ` is "unspecified": a free value (log entry 4). -/
def State.accept (s : State) (len : Word) : State :=
  { s with
    phase := .busy
    err   := none
    step  := .s1
    off   := 0
    len   := len
    lz    := Config.freeLz s.draws
    x     := Fields.empty
    out   := none
    draws := s.draws + 1 }

/-- `rst` asserted, from any state (70_reset_and_hazards.md R220): the registers of R41. The buffer and the host's
moves are not the block's and stay; `LZ` is "unspecified": a free value (log entry 4). -/
def State.doReset (s : State) : State :=
  { State.reset with
    cfg   := s.cfg
    lz    := Config.freeLz s.draws
    mem   := s.mem
    host  := s.host
    draws := s.draws + 1 }

/-- The host's move for this transition is taken. -/
def State.consume (s : State) : State := { s with host := s.host.tail }

/-- The host puts a buffer on the byte read port (R223 (a)): not while a parse borrows it (R51, R226, U4). -/
def State.place (s : State) (bytes : List Byte) : Host.Outcome State Fault Refusal :=
  if s.phase = .busy then .refused .bufferChanged
  else .next { s with mem := Memory.ofBytes 0 bytes }

/-! ## Results of the three operations -/

/-- What READBITS, SKIP or UE ends in: a value and the state it leaves; a `raise` and the state it leaves (R12); a stop
of the model. -/
inductive OpResult (α : Type) where
  | value (v : α) (s : State)
  | raised (k : ErrKind) (s : State)
  | fault (f : Fault)
  | refused (r : Refusal)
  deriving DecidableEq, Repr

/-- One operation after another: a `raise` ends the whole at once (R12). -/
def OpResult.andThen {α β : Type} (r : OpResult α) (f : α → State → OpResult β) : OpResult β :=
  match r with
  | .value v s => f v s
  | .raised k s => .raised k s
  | .fault e => .fault e
  | .refused e => .refused e

/-- The end of an instruction: `f` finishes it with the value, and a `raise` takes the abort (R142, R194). -/
def OpResult.finish {α : Type} (r : OpResult α) (f : α → State → State) : Host.Outcome State Fault Refusal :=
  match r with
  | .value v s => .next (f v s)
  | .raised k s => .next (s.abort k)
  | .fault e => .fault e
  | .refused e => .refused e

end Sys2Proof.Machine
end

