-- ==== Sys2Proof/Machine/Flags.lean ====
section
/-!
DEFINITION. The conditions of 10_state.md R32. The block has no arithmetic condition codes; these are the only tests
any step makes, with the codes that `PHASE` and `ERR` have on the ports (R30, R31).
-/

namespace Sys2Proof.Machine

/-- (c) fewer than `n` bits remain: `OFF + n > 8*LEN` (R101, R105), exact on naturals (R11). -/
def State.underruns (s : State) (n : Nat) : Bool := decide (8 * s.len.toNat < s.off + n)

/-- (a) `x[CHROMA] = 3`, tested at the end of S12 (R154). -/
def State.chromaIsThree (s : State) : Bool := decide (s.x.chroma = some 3)

/-- (b) `x[CWF] = 1`, tested at the end of S16 (R158). -/
def State.windowPresent (s : State) : Bool := decide (s.x.cwf = some 1)

/-- Where S12 goes (R154, R169). -/
def State.afterChroma (s : State) : StepName := if s.chromaIsThree then .s13 else .s14

/-- Where S16 goes (R158, R169). -/
def State.afterCwf (s : State) : StepName := if s.windowPresent then .s17 else .s21

/-- `phase` on its port (R30). -/
def Phase.code : Phase → BitVec 2
  | .idle => 0
  | .busy => 1
  | .done => 2
  | .error => 3

/-- `err` on its port (R31). -/
def errCode : Option ErrKind → BitVec 2
  | none => 0
  | some .bufferUnderrun => 1
  | some .codeTooLong => 2

/-- What the host sees (R36): `phase`, `err`, and the record while `PHASE = DONE` only (R29). -/
structure Observed where
  phase : BitVec 2
  err   : BitVec 2
  out   : Option SpsInfo
  deriving DecidableEq, Repr

/-- The outputs of R34 and R36. -/
def State.observe (s : State) : Observed where
  phase := s.phase.code
  err   := errCode s.err
  out   := if s.phase = .done then s.out else none

end Sys2Proof.Machine
end

