-- ==== Sys2Proof/Syntax.lean ====
section
/-!
DEFINITION. The syntax: one constructor per row of spec/opcode_table.json, in the table's order. The block has no
instruction words (30_encoding.md R70): the rows are the host operation START, the three operations a step asks of
the lower layers, and the 23 steps of the hardwired sequence (30_encoding.md R84).
-/

namespace Sys2Proof

/-- One row of the table each. The operands are those the row names: `len` of START, `n` of READBITS and SKIP. -/
inductive Instr where
  /-- START (10_state.md R35), with the buffer length in bytes on the port `len`. -/
  | start (len : Word)
  /-- READBITS (40_bitcursor.md R100). -/
  | readBits (n : Nat)
  /-- SKIP (40_bitcursor.md R104). -/
  | skip (n : Nat)
  /-- UE (41_expgolomb.md R120). -/
  | ue
  /-- S1, NAL unit header/prefix (42_sps_parser.md R143). -/
  | s1SkipN
  /-- S2, sps_video_parameter_set_id (R144). -/
  | s2U4
  /-- S3, sps_max_sub_layers_minus1 (R145). -/
  | s3U3
  /-- S4, sps_temporal_id_nesting_flag (R146). -/
  | s4U1
  /-- S5, profileSpace (R147). -/
  | s5Pspace
  /-- S6, tierFlag (R148). -/
  | s6Tier
  /-- S7, profileIdc (R149). -/
  | s7Pidc
  /-- S8, profile-compatibility flags (R150). -/
  | s8Skip32
  /-- S9, reserved/constraint flags (R151). -/
  | s9Skip16
  /-- S10, levelIdc (R152). -/
  | s10Level
  /-- S11, sps_seq_parameter_set_id (R153). -/
  | s11Ue
  /-- S12, chromaFormatIdc (R154). -/
  | s12Chroma
  /-- S13, separate_colour_plane_flag (R155). -/
  | s13U1
  /-- S14, picWidthInLumaSamples (R156). -/
  | s14Picw
  /-- S15, picHeightInLumaSamples (R157). -/
  | s15Pich
  /-- S16, conformanceWindowFlag (R158). -/
  | s16Cwf
  /-- S17, conformance window left offset (R159). -/
  | s17Cleft
  /-- S18, conformance window right offset (R160). -/
  | s18Cright
  /-- S19, conformance window top offset (R161). -/
  | s19Ctop
  /-- S20, conformance window bottom offset (R162). -/
  | s20Cbot
  /-- S21, bitDepthLumaMinus8 (R163). -/
  | s21Bdlm8
  /-- S22, bitDepthChromaMinus8 (R164). -/
  | s22Bdcm8
  /-- S23, ASSEMBLE (R165, R166). -/
  | s23Assemble
  deriving DecidableEq, Repr

end Sys2Proof
end

