-- ==== Sys2Proof/WellFormed.lean ====
section
/-!
DEFINITION. Which instructions the spec gives a meaning: the operand ranges of R100, R104 and R225.
-/

namespace Sys2Proof

/-- `1 <= n <= 32` (40_bitcursor.md R100, R107). -/
def readWidthOk (n : Nat) : Bool := decide (1 ≤ n) && decide (n ≤ readMax)

/-- `8*len < 2^32` (70_reset_and_hazards.md R225). -/
def lenOk (len : Word) : Bool := decide (8 * len.toNat < 2 ^ 32)

/-- The operands are ones the spec gives a meaning. SKIP takes any `n` (R104 says `0 <= n`); the steps have no operand. -/
def Instr.wellFormed : Instr → Bool
  | .start len => lenOk len
  | .readBits n => readWidthOk n
  | .skip _ => true
  | .ue => true
  | .s1SkipN => true
  | .s2U4 => true
  | .s3U3 => true
  | .s4U1 => true
  | .s5Pspace => true
  | .s6Tier => true
  | .s7Pidc => true
  | .s8Skip32 => true
  | .s9Skip16 => true
  | .s10Level => true
  | .s11Ue => true
  | .s12Chroma => true
  | .s13U1 => true
  | .s14Picw => true
  | .s15Pich => true
  | .s16Cwf => true
  | .s17Cleft => true
  | .s18Cright => true
  | .s19Ctop => true
  | .s20Cbot => true
  | .s21Bdlm8 => true
  | .s22Bdcm8 => true
  | .s23Assemble => true

end Sys2Proof
end

