-- ==== Sys2Proof/Machine/Operands.lean ====
section
/-!
DEFINITION. The three operations with which a step obtains its element: READBITS and SKIP of BitCursor
(40_bitcursor.md) and UE of ExpGolombDecoder (41_expgolomb.md).
-/

namespace Sys2Proof.Machine

/-- `READBITS(n)` (R100 to R102): the bounds test first, then `n` bits, most significant first; a failing read changes
nothing. `n` outside 1 to 32 has no meaning (R107). -/
def readBits (n : Nat) (s : State) : OpResult Word :=
  if readWidthOk n then
    if s.underruns n then .raised .bufferUnderrun s
    else
      match s.bits n s.off 0 with
      | .ok v => .value v (s.setOff (s.off + n))
      | .error f => .fault f
  else .refused (.readWidth n)

/-- `SKIP(n)` (R104, R105): the same bounds test; no byte is read. -/
def skip (n : Nat) (s : State) : OpResult Unit :=
  if s.underruns n then .raised .bufferUnderrun s
  else .value () (s.setOff (s.off + n))

/-- The counting loop of UE (R120), with `left` more zeros to come before the count is 31: each turn is one
`READBITS(1)`, whose underrun comes before the count (R123); the zero that makes the count 31 raises `CodeTooLong` before
any further bit is read (R122). -/
def countZeros : Nat → State → OpResult Unit
  | 0, s => .raised .codeTooLong s
  | left + 1, s =>
    (readBits 1 s).andThen fun b s' =>
      if b = 1 then .value () s' else countZeros left (s'.setLz (s'.lz + 1))

/-- `(1 << LZ) - 1 + suffix` (R120, R125). -/
def codeNum (lz : BitVec 5) (suffix : Word) : Word := ((1 : Word) <<< lz.toNat) - 1 + suffix

/-- The suffix of UE, after the marker: `READBITS(LZ)`, and no read at all when `LZ = 0` (R120, R124). -/
def ueSuffix (s : State) : OpResult Word :=
  if s.lz = 0 then .value (codeNum s.lz 0) s
  else (readBits s.lz.toNat s).andThen fun suffix s' => .value (codeNum s.lz suffix) s'

/-- `UE()` (R120): the count of zeros, then the suffix. DESIGN CHOICE (log entry 25): however UE ends, `LZ` keeps the last
count; the spec leaves open what it holds outside a UE (R27, U11), and nothing reads it there. -/
def ue (s : State) : OpResult Word :=
  (countZeros (ueMaxLz + 1) (s.setLz 0)).andThen fun _ s' => ueSuffix s'

/-! ## The three kinds of step (R142) -/

/-- A step that reads `u(n)`: READBITS(n), the destination if any, then `pc <- nxt`. -/
def performU (n : Nat) (dest : Option FieldReg) (nxt : State → StepName) (s : State) :
    Host.Outcome State Fault Refusal :=
  (readBits n s).finish fun v s' => (s'.writeDest dest v).goto (nxt (s'.writeDest dest v))

/-- A step that passes over `x(n)`: SKIP(n), then `pc <- nxt`. -/
def performSkip (n : Nat) (nxt : StepName) (s : State) : Host.Outcome State Fault Refusal :=
  (skip n s).finish fun _ s' => s'.goto nxt

/-- A step that decodes `ue(v)`: UE(), the destination if any, then `pc <- nxt`. -/
def performUe (dest : Option FieldReg) (nxt : State → StepName) (s : State) : Host.Outcome State Fault Refusal :=
  (ue s).finish fun v s' => (s'.writeDest dest v).goto (nxt (s'.writeDest dest v))

end Sys2Proof.Machine
end

