-- ==== Sys2Proof/Machine/Assemble.lean ====
section
/-!
DEFINITION. Step S23, ASSEMBLE (42_sps_parser.md R165 to R168): the record from the field registers.
-/

namespace Sys2Proof.Machine

/-- `(pic - (a + b)) mod 2^32` (R165, R167): 32-bit unsigned arithmetic that wraps (D7, log entry 14). -/
def cropped (pic a b : Word) : Word := pic - (a + b)

/-- `v + 8` (R166, R168). -/
def bitDepth (v : Word) : Word := v + 8

/-- `OUT.width` and `OUT.height` (R165): the four offsets are read only when `x[CWF] = 1`. -/
def pictureSize (f : Fields) : Except Fault (Word × Word) := do
  let cwf ← need .cwf f.cwf
  let w ← need .picw f.picw
  let h ← need .pich f.pich
  if cwf = 1 then
    let l ← need .cleft f.cleft
    let r ← need .cright f.cright
    let t ← need .ctop f.ctop
    let b ← need .cbot f.cbot
    pure (cropped w l r, cropped h t b)
  else pure (w, h)

/-- The whole record (R165, R166). -/
def assemble (f : Fields) : Except Fault SpsInfo := do
  let size ← pictureSize f
  let ps ← need .pspace f.pspace
  let tf ← need .tier f.tier
  let pi ← need .pidc f.pidc
  let li ← need .level f.level
  let cf ← need .chroma f.chroma
  let bl ← need .bdlm8 f.bdlm8
  let bc ← need .bdcm8 f.bdcm8
  pure
    { width := size.1, height := size.2, profileSpace := ps, tierFlag := tf, profileIdc := pi, levelIdc := li,
      chromaFormatIdc := cf, bitDepthLuma := bitDepth bl, bitDepthChroma := bitDepth bc }

/-- S23: all nine result registers and `PHASE <- DONE` in one transition; it reads no bit and cannot raise (R165, R166).
A field register without a value stops it (R13), which R171 says no parse reaches. -/
def execS23Assemble (s : State) : Host.Outcome State Fault Refusal :=
  match assemble s.x with
  | .ok r => .next (s.complete r)
  | .error f => .fault f

end Sys2Proof.Machine
end

