-- ==== Sys2Proof/Machine/Cursor.lean ====
section
/-!
DEFINITION. The BitCursor operations run as instructions of their own (40_bitcursor.md). A value is kept in the model's
field `ret` (log entry 5), a `raise` takes the abort (R102, R194).
-/

namespace Sys2Proof.Machine

/-- READBITS (R100 to R102, R107). -/
def execReadBits (n : Nat) (s : State) : Host.Outcome State Fault Refusal :=
  (readBits n s).finish fun v s' => s'.setRet v

/-- SKIP (R104, R105): no result. -/
def execSkip (n : Nat) (s : State) : Host.Outcome State Fault Refusal :=
  (skip n s).finish fun _ s' => s'

end Sys2Proof.Machine
end

