-- ==== Sys2Proof/Machine/Depth.lean ====
section
/-!
DEFINITION. Steps S21 and S22: the bit depths (42_sps_parser.md R163, R164).
-/

namespace Sys2Proof.Machine

/-- S21: `x[BDLM8] <- UE(); pc <- S22` (R163). -/
def execS21Bdlm8 (s : State) : Host.Outcome State Fault Refusal := performUe (some .bdlm8) (fun _ => .s22) s

/-- S22: `x[BDCM8] <- UE(); pc <- S23` (R164). -/
def execS22Bdcm8 (s : State) : Host.Outcome State Fault Refusal := performUe (some .bdcm8) (fun _ => .s23) s

end Sys2Proof.Machine
end

