-- ==== Sys2Proof/Machine/ExpGolomb.lean ====
section
/-!
DEFINITION. The ExpGolombDecoder operation run as an instruction of its own (41_expgolomb.md).
-/

namespace Sys2Proof.Machine

/-- UE (R120 to R127). -/
def execUe (s : State) : Host.Outcome State Fault Refusal :=
  (ue s).finish fun v s' => s'.setRet v

end Sys2Proof.Machine
end

