-- ==== Sys2Proof/Machine/HostOps.lean ====
section
/-!
DEFINITION. The host operation START (10_state.md R35, R42).
-/

namespace Sys2Proof.Machine

/-- START: ignored in `BUSY` (R35, R229); otherwise accepted (R42), the host's duty `8*len < 2^32` being a premise of it
(R225, U5: `refuse`, log entry 9). -/
def execStart (len : Word) (s : State) : Host.Outcome State Fault Refusal :=
  if s.phase = .busy then .next s
  else if lenOk len then .next (s.accept len)
  else .refused (.lenTooLarge len)

end Sys2Proof.Machine
end

