-- ==== Sys2Proof/Machine/Picture.lean ====
section
/-!
DEFINITION. Steps S11 to S15: the parameter-set id, the chroma format, the picture size (42_sps_parser.md R153 to R157).
-/

namespace Sys2Proof.Machine

/-- S11: `UE(); pc <- S12`, discarded (R153). -/
def execS11Ue (s : State) : Host.Outcome State Fault Refusal := performUe none (fun _ => .s12) s

/-- S12: `x[CHROMA] <- UE()`, then S13 if it is 3, else S14 (R154). -/
def execS12Chroma (s : State) : Host.Outcome State Fault Refusal := performUe (some .chroma) State.afterChroma s

/-- S13: `READBITS(1); pc <- S14`, discarded (R155). Its condition was tested at the end of S12 (R32, log entry 16). -/
def execS13U1 (s : State) : Host.Outcome State Fault Refusal := performU 1 none (fun _ => .s14) s

/-- S14: `x[PICW] <- UE(); pc <- S15` (R156). -/
def execS14Picw (s : State) : Host.Outcome State Fault Refusal := performUe (some .picw) (fun _ => .s15) s

/-- S15: `x[PICH] <- UE(); pc <- S16` (R157). -/
def execS15Pich (s : State) : Host.Outcome State Fault Refusal := performUe (some .pich) (fun _ => .s16) s

end Sys2Proof.Machine
end

