-- ==== Sys2Proof/Machine/Prefix.lean ====
section
/-!
DEFINITION. Steps S1 to S10, the fixed-width part (42_sps_parser.md R143 to R152, 30_encoding.md R77).
-/

namespace Sys2Proof.Machine

/-- S1: `SKIP(NAL_SKIP_BITS); pc <- S2` (R143). -/
def execS1SkipN (s : State) : Host.Outcome State Fault Refusal := performSkip s.cfg.nalSkipBits.val .s2 s

/-- S2: `READBITS(4); pc <- S3`, discarded (R144). -/
def execS2U4 (s : State) : Host.Outcome State Fault Refusal := performU 4 none (fun _ => .s3) s

/-- S3: `READBITS(3); pc <- S4`, discarded (R145). -/
def execS3U3 (s : State) : Host.Outcome State Fault Refusal := performU 3 none (fun _ => .s4) s

/-- S4: `READBITS(1); pc <- S5`, discarded (R146). -/
def execS4U1 (s : State) : Host.Outcome State Fault Refusal := performU 1 none (fun _ => .s5) s

/-- S5: `x[PSPACE] <- READBITS(2); pc <- S6` (R147). -/
def execS5Pspace (s : State) : Host.Outcome State Fault Refusal := performU 2 (some .pspace) (fun _ => .s6) s

/-- S6: `x[TIER] <- READBITS(1); pc <- S7` (R148). -/
def execS6Tier (s : State) : Host.Outcome State Fault Refusal := performU 1 (some .tier) (fun _ => .s7) s

/-- S7: `x[PIDC] <- READBITS(5); pc <- S8` (R149). -/
def execS7Pidc (s : State) : Host.Outcome State Fault Refusal := performU 5 (some .pidc) (fun _ => .s8) s

/-- S8: `SKIP(32); pc <- S9` (R150). -/
def execS8Skip32 (s : State) : Host.Outcome State Fault Refusal := performSkip compatSkipBits .s9 s

/-- S9: `SKIP(16); pc <- S10` (R151). -/
def execS9Skip16 (s : State) : Host.Outcome State Fault Refusal := performSkip constraintSkipBits .s10 s

/-- S10: `x[LEVEL] <- READBITS(8); pc <- S11` (R152). -/
def execS10Level (s : State) : Host.Outcome State Fault Refusal := performU 8 (some .level) (fun _ => .s11) s

end Sys2Proof.Machine
end

