-- ==== Sys2Proof/Machine/Window.lean ====
section
/-!
DEFINITION. Steps S16 to S20: the conformance window (42_sps_parser.md R158 to R162).
-/

namespace Sys2Proof.Machine

/-- S16: `x[CWF] <- READBITS(1)`, then S17 if it is 1, else S21 (R158). -/
def execS16Cwf (s : State) : Host.Outcome State Fault Refusal := performU 1 (some .cwf) State.afterCwf s

/-- S17: `x[CLEFT] <- UE(); pc <- S18` (R159). -/
def execS17Cleft (s : State) : Host.Outcome State Fault Refusal := performUe (some .cleft) (fun _ => .s18) s

/-- S18: `x[CRIGHT] <- UE(); pc <- S19` (R160). -/
def execS18Cright (s : State) : Host.Outcome State Fault Refusal := performUe (some .cright) (fun _ => .s19) s

/-- S19: `x[CTOP] <- UE(); pc <- S20` (R161). -/
def execS19Ctop (s : State) : Host.Outcome State Fault Refusal := performUe (some .ctop) (fun _ => .s20) s

/-- S20: `x[CBOT] <- UE(); pc <- S21` (R162). -/
def execS20Cbot (s : State) : Host.Outcome State Fault Refusal := performUe (some .cbot) (fun _ => .s21) s

end Sys2Proof.Machine
end

