-- ==== Sys2Proof/Machine/Dispatch.lean ====
section
/-!
DEFINITION. One arm per row of spec/opcode_table.json, in the table's order: each calls that row's own meaning.
-/

namespace Sys2Proof.Machine

open Sys2Proof

def exec (i : Instr) (s : State) : Host.Outcome State Fault Refusal :=
  match i with
  | .start len => Sys2Proof.Machine.execStart len s
  | .readBits n => Sys2Proof.Machine.execReadBits n s
  | .skip n => Sys2Proof.Machine.execSkip n s
  | .ue => Sys2Proof.Machine.execUe s
  | .s1SkipN => Sys2Proof.Machine.execS1SkipN s
  | .s2U4 => Sys2Proof.Machine.execS2U4 s
  | .s3U3 => Sys2Proof.Machine.execS3U3 s
  | .s4U1 => Sys2Proof.Machine.execS4U1 s
  | .s5Pspace => Sys2Proof.Machine.execS5Pspace s
  | .s6Tier => Sys2Proof.Machine.execS6Tier s
  | .s7Pidc => Sys2Proof.Machine.execS7Pidc s
  | .s8Skip32 => Sys2Proof.Machine.execS8Skip32 s
  | .s9Skip16 => Sys2Proof.Machine.execS9Skip16 s
  | .s10Level => Sys2Proof.Machine.execS10Level s
  | .s11Ue => Sys2Proof.Machine.execS11Ue s
  | .s12Chroma => Sys2Proof.Machine.execS12Chroma s
  | .s13U1 => Sys2Proof.Machine.execS13U1 s
  | .s14Picw => Sys2Proof.Machine.execS14Picw s
  | .s15Pich => Sys2Proof.Machine.execS15Pich s
  | .s16Cwf => Sys2Proof.Machine.execS16Cwf s
  | .s17Cleft => Sys2Proof.Machine.execS17Cleft s
  | .s18Cright => Sys2Proof.Machine.execS18Cright s
  | .s19Ctop => Sys2Proof.Machine.execS19Ctop s
  | .s20Cbot => Sys2Proof.Machine.execS20Cbot s
  | .s21Bdlm8 => Sys2Proof.Machine.execS21Bdlm8 s
  | .s22Bdcm8 => Sys2Proof.Machine.execS22Bdcm8 s
  | .s23Assemble => Sys2Proof.Machine.execS23Assemble s

end Sys2Proof.Machine
end

