-- ==== Sys2Proof/Decode.lean ====
section
/-!
DEFINITION. Decoding. The block has no opcodes (30_encoding.md R70): WHICH row comes next is said by the `start` port
and by the 5-bit `STEP` register (10_state.md R25, R35), and the bits of the buffer are the DATA of that row, in one of
the formats `x(n)`, `u(n)`, `ue(v)` (R71 to R76, R86: "a decoder is written from the order of the rows and their
conditions, not from bit patterns"). The encoders stand after the decoders. The machine itself reads its data bit by
bit from the buffer (Machine/Operands.lean); that the two agree is a statement.
-/

namespace Sys2Proof

/-- Why a decoder refuses. -/
inductive DecodeError where
  /-- No `start` and no parse running: nothing is selected (60_exceptions.md R206). Safe. -/
  | idle
  /-- The 5-bit code names no step of R84 (S0, or 24 to 31). Safe. -/
  | noSuchStep (code : BitVec 5)
  /-- The bits end before the element does (30_encoding.md R81 (a)). Safe. -/
  | truncated
  /-- 31 zero bits at the start of a ue(v) element (30_encoding.md R82). Safe. -/
  | codeTooLong
  deriving DecidableEq, Repr

/-- The signals that select the next row: the ports `start` and `len` (R34), whether `PHASE = BUSY`, and `STEP`. -/
structure Selector where
  start : Bool
  len   : Word
  busy  : Bool
  code  : BitVec 5
  deriving DecidableEq, Repr

/-- The row of the step with index `code` (30_encoding.md R84, 10_state.md R25). -/
def decodeStep (code : BitVec 5) : Except DecodeError Instr :=
  match code.toNat with
  | 1 => .ok .s1SkipN
  | 2 => .ok .s2U4
  | 3 => .ok .s3U3
  | 4 => .ok .s4U1
  | 5 => .ok .s5Pspace
  | 6 => .ok .s6Tier
  | 7 => .ok .s7Pidc
  | 8 => .ok .s8Skip32
  | 9 => .ok .s9Skip16
  | 10 => .ok .s10Level
  | 11 => .ok .s11Ue
  | 12 => .ok .s12Chroma
  | 13 => .ok .s13U1
  | 14 => .ok .s14Picw
  | 15 => .ok .s15Pich
  | 16 => .ok .s16Cwf
  | 17 => .ok .s17Cleft
  | 18 => .ok .s18Cright
  | 19 => .ok .s19Ctop
  | 20 => .ok .s20Cbot
  | 21 => .ok .s21Bdlm8
  | 22 => .ok .s22Bdcm8
  | 23 => .ok .s23Assemble
  | _ => .error (.noSuchStep code)

/-- A START on the port comes first (the model's ignore of a START in `BUSY` is a step of its own, D11, log entry 8);
without one a running parse performs the step `STEP` names (R25). -/
def decodeSelector (sel : Selector) : Except DecodeError Instr :=
  if sel.start then .ok (.start sel.len)
  else if sel.busy then decodeStep sel.code
  else .error .idle

/-! ## The formats of the data (30_encoding.md R71 to R76) -/

/-- The format of the data a row consumes. -/
inductive Format where
  /-- Consumes no bit: START and S23. -/
  | empty
  /-- `x(n)`: `n` bits passed over (R72). -/
  | x (n : Nat)
  /-- `u(n)`: `n` bits, an unsigned integer (R71). -/
  | u (n : Nat)
  /-- `ue(v)`: one unsigned Exp-Golomb code (R73, R74). -/
  | ue
  deriving DecidableEq, Repr

/-- The format column of the table; `skipN` is `NAL_SKIP_BITS`. For the operation rows: what R100, R104 and R120 give
under "Encoding". -/
def Instr.format (skipN : Nat) : Instr → Format
  | .start _ => .empty
  | .readBits n => .u n
  | .skip n => .x n
  | .ue => .ue
  | .s1SkipN => .x skipN
  | .s2U4 => .u 4
  | .s3U3 => .u 3
  | .s4U1 => .u 1
  | .s5Pspace => .u 2
  | .s6Tier => .u 1
  | .s7Pidc => .u 5
  | .s8Skip32 => .x compatSkipBits
  | .s9Skip16 => .x constraintSkipBits
  | .s10Level => .u 8
  | .s11Ue => .ue
  | .s12Chroma => .ue
  | .s13U1 => .u 1
  | .s14Picw => .ue
  | .s15Pich => .ue
  | .s16Cwf => .u 1
  | .s17Cleft => .ue
  | .s18Cright => .ue
  | .s19Ctop => .ue
  | .s20Cbot => .ue
  | .s21Bdlm8 => .ue
  | .s22Bdcm8 => .ue
  | .s23Assemble => .empty

/-- The bits of one byte, bit index 7 first (00_scope.md R10). -/
def bitsOfByte (b : Byte) : List Bool :=
  [b.getLsbD 7, b.getLsbD 6, b.getLsbD 5, b.getLsbD 4, b.getLsbD 3, b.getLsbD 2, b.getLsbD 1, b.getLsbD 0]

/-- The stream bits of a buffer, in the order consumed (R10, 20_memory.md R55). -/
def bitsOfBytes : List Byte → List Bool
  | [] => []
  | b :: bs => bitsOfByte b ++ bitsOfBytes bs

/-- `u(n)` (R71), the bits already read being `v`: each further bit becomes the new lowest one. -/
def decodeU : Nat → Nat → List Bool → Except DecodeError (Nat × List Bool)
  | 0, v, bs => .ok (v, bs)
  | _ + 1, _, [] => .error .truncated
  | n + 1, v, b :: bs => decodeU n (2 * v + b.toNat) bs

/-- `x(n)` (R72): the bits are passed over whatever they are. -/
def decodeX : Nat → List Bool → Except DecodeError (List Bool)
  | 0, bs => .ok bs
  | _ + 1, [] => .error .truncated
  | n + 1, _ :: bs => decodeX n bs

/-- The zeros and the marker of a ue(v) code: `left` zeros may still come before the code is too long (R82, with
41_expgolomb.md R123: the zero that exhausts `left` decides, before any further bit is looked at). -/
def decodeZeros : Nat → Nat → List Bool → Except DecodeError (Nat × List Bool)
  | 0, _, _ => .error .codeTooLong
  | _ + 1, _, [] => .error .truncated
  | _ + 1, k, true :: bs => .ok (k, bs)
  | left + 1, k, false :: bs => decodeZeros left (k + 1) bs

/-- `ue(v)` (R73, R74): `codeNum = 2^k - 1 + s`. -/
def decodeUe (bs : List Bool) : Except DecodeError (Nat × List Bool) :=
  match decodeZeros (ueMaxLz + 1) 0 bs with
  | .error e => .error e
  | .ok (k, bs) =>
    match decodeU k 0 bs with
    | .error e => .error e
    | .ok (s, bs) => .ok (2 ^ k - 1 + s, bs)

/-- One element of a format: its value (0 where the bits are passed over) and the bits after it. -/
def decodeElement : Format → List Bool → Except DecodeError (Nat × List Bool)
  | .empty, bs => .ok (0, bs)
  | .x n, bs =>
    match decodeX n bs with
    | .error e => .error e
    | .ok bs => .ok (0, bs)
  | .u n, bs => decodeU n 0 bs
  | .ue, bs => decodeUe bs

/-- The row selected, with the value of its element and the bits after it. -/
def decode (skipN : Nat) (sel : Selector) (bs : List Bool) : Except DecodeError (Instr × Nat × List Bool) :=
  match decodeSelector sel with
  | .error e => .error e
  | .ok i =>
    match decodeElement (i.format skipN) bs with
    | .error e => .error e
    | .ok (v, bs) => .ok (i, v, bs)

/-! ## Encoders -/

/-- `u(n)` (R71): bit `n-1` first. -/
def encodeU : Nat → Nat → List Bool
  | 0, _ => []
  | n + 1, v => v.testBit n :: encodeU n v

/-- `ue(v)` (R76): with `m` the number of bits of `x + 1`, `m - 1` zeros and then those `m` bits. -/
def encodeUe (x : Nat) : List Bool :=
  List.replicate (Nat.log2 (x + 1)) false ++ encodeU (Nat.log2 (x + 1) + 1) (x + 1)

/-- The values a format can carry: R71, R72, R75. -/
def Format.valueOk : Format → Nat → Bool
  | .empty, v => decide (v = 0)
  | .x _, v => decide (v = 0)
  | .u n, v => decide (v < 2 ^ n)
  | .ue, v => decide (v ≤ 2 ^ 31 - 2)

/-- The bits of an element with value `v`. The bits of `x(n)` do not matter (R72): zeros are written. -/
def encodeElement : Format → Nat → List Bool
  | .empty, _ => []
  | .x n, _ => List.replicate n false
  | .u n, v => encodeU n v
  | .ue, v => encodeUe v

/-- The index of a step's row in the sequence (R25, R84); no other row has one. -/
def stepCode : Instr → Option (BitVec 5)
  | .start _ => none
  | .readBits _ => none
  | .skip _ => none
  | .ue => none
  | .s1SkipN => some 1
  | .s2U4 => some 2
  | .s3U3 => some 3
  | .s4U1 => some 4
  | .s5Pspace => some 5
  | .s6Tier => some 6
  | .s7Pidc => some 7
  | .s8Skip32 => some 8
  | .s9Skip16 => some 9
  | .s10Level => some 10
  | .s11Ue => some 11
  | .s12Chroma => some 12
  | .s13U1 => some 13
  | .s14Picw => some 14
  | .s15Pich => some 15
  | .s16Cwf => some 16
  | .s17Cleft => some 17
  | .s18Cright => some 18
  | .s19Ctop => some 19
  | .s20Cbot => some 20
  | .s21Bdlm8 => some 21
  | .s22Bdcm8 => some 22
  | .s23Assemble => some 23

/-- The signals that select a row. READBITS, SKIP and UE have none: only a step issues them (R38, R70). -/
def encodeSelector : Instr → Option Selector
  | .start len => some ⟨true, len, false, 0⟩
  | i => (stepCode i).map fun code => ⟨false, 0, true, code⟩

/-- The signals and the bits of a row whose element has the value `v`. -/
def encode (skipN : Nat) (i : Instr) (v : Nat) : Option (Selector × List Bool) :=
  (encodeSelector i).map fun sel => (sel, encodeElement (i.format skipN) v)

/-! ## The host's table words -/

/-- The bytes of a table word: `nbits` bits of `w`, byte 0 the lowest, then zeros up to the longest element (61 bits,
R73, so 8 bytes). -/
def tableBytes (nbits w : Nat) : List Byte :=
  (List.range (max 8 ((nbits + 7) / 8))).map fun j => BitVec.ofNat 8 (w % 2 ^ nbits / 2 ^ (8 * j))

/-- DESIGN CHOICE (log entry 15). The formats "are positional and not self-identifying" (R86): the bits of a table word
do not say which step reads them. A word given without a position is read where a parse starts, at S1, with the default
`NAL_SKIP_BITS`. -/
def decodeTableWord (nbits w : Nat) : Option Instr :=
  match decode Config.default.nalSkipBits ⟨false, 0, true, 1⟩ (bitsOfBytes (tableBytes nbits w)) with
  | .ok (i, _, _) => some i
  | .error _ => none

end Sys2Proof
end

