-- ==== Sys2Proof/Machine/Fetch.lean ====
section
/-!
DEFINITION. What the next transition of the machine is: the host's move if one is in store, else the step `STEP` names
(10_state.md R25, R35, R38; 70_reset_and_hazards.md R220, R230).
-/

namespace Sys2Proof.Machine

/-- The next transition. -/
inductive Selection where
  /-- `rst` is asserted (R220). -/
  | reset
  /-- The host puts a buffer on the read port (R223). -/
  | place (bytes : List Byte)
  /-- One row of the table runs. -/
  | run (i : Instr)
  /-- Nothing to do: not `BUSY` and no START (R206). -/
  | idle
  /-- `BUSY` with `STEP = S0`: no such step (unreachable, R40). -/
  | noStep
  deriving DecidableEq, Repr

/-- The signals that reach the decoder when `start` has the level given. -/
def State.selector (s : State) (start : Bool) (len : Word) : Selector :=
  ⟨start, len, decide (s.phase = .busy), s.step.code⟩

/-- The row the decoder selects, or why there is none. -/
def State.selectRow (s : State) (start : Bool) (len : Word) : Selection :=
  match decodeSelector (s.selector start len) with
  | .ok i => .run i
  | .error .idle => .idle
  | .error _ => .noStep

/-- The next transition: a reset overrides a START asserted with it (R220); with no move in store no port is asserted. -/
def State.select (s : State) : Selection :=
  match s.host with
  | [] => s.selectRow false 0
  | .place bytes :: _ => .place bytes
  | .clock rst start len :: _ => if rst then .reset else s.selectRow start len

/-- A buffer of a table word in place of what the machine would be given by START: the state of an accepted START (R42)
on the bytes of `w`, with no host move in store, so that the next step performs S1 on them (log entry 15). -/
def State.placeTableWord (s : State) (nbits w : Nat) : State :=
  { s.accept (BitVec.ofNat 32 (tableBytes nbits w).length) with
    mem  := Memory.ofBytes 0 (tableBytes nbits w)
    host := [] }

end Sys2Proof.Machine
end

