-- ==== Sys2Proof/Machine/Step.lean ====
section
/-!
DEFINITION. One step of the machine.
-/

namespace Sys2Proof.Machine

/-- One transition: the host's move, or the row selected, is taken off the host's list and carried out. -/
def step (s : State) : Host.Outcome State Fault Refusal :=
  match s.select with
  | .reset => .next s.consume.doReset
  | .place bytes => s.consume.place bytes
  | .run i => exec i s.consume
  | .idle => .next s.consume
  | .noStep => .fault .noStep

/-- The host's table word stored so that the very next step reads it (log entry 15). -/
def State.withFetchWord (s : State) (nbits w : Nat) : State := s.placeTableWord nbits w

end Sys2Proof.Machine
end

