-- ==== Sys2Proof/Machine/Parse.lean ====
section
/-!
DEFINITION. The whole parse as one function of the buffer, its length and the configuration (42_sps_parser.md R172),
written from that rule and not from the steps. The machine does not use it: that it agrees with a run of the steps is a
statement.
-/

namespace Sys2Proof.Machine

/-- A cursor that starts at `OFF = 0` over a buffer (R172). -/
def cursor (cfg : Config) (mem : Memory) (len : Word) : State :=
  { State.reset with cfg := cfg, mem := mem, len := len }

/-- The four offsets when the flag is 1, and the size they leave (R172). -/
def parseSize (w h f : Word) (s : State) : OpResult (Word × Word) :=
  if f = 1 then
    (ue s).andThen fun l s => (ue s).andThen fun r s => (ue s).andThen fun t s => (ue s).andThen fun b s =>
      .value (cropped w l r, cropped h t b) s
  else .value (w, h) s

/-- The one bit read when the chroma format is 3 (R172). -/
def parseColourPlane (cf : Word) (s : State) : OpResult Unit :=
  if cf = 3 then (readBits 1 s).andThen fun _ s => .value () s else .value () s

/-- The listing of R172 from a cursor on. -/
def parseFrom (s : State) : OpResult SpsInfo :=
  (skip s.cfg.nalSkipBits.val s).andThen fun _ s =>
  (readBits 4 s).andThen fun _ s =>
  (readBits 3 s).andThen fun _ s =>
  (readBits 1 s).andThen fun _ s =>
  (readBits 2 s).andThen fun ps s =>
  (readBits 1 s).andThen fun tf s =>
  (readBits 5 s).andThen fun pi s =>
  (skip 32 s).andThen fun _ s =>
  (skip 16 s).andThen fun _ s =>
  (readBits 8 s).andThen fun li s =>
  (ue s).andThen fun _ s =>
  (ue s).andThen fun cf s =>
  (parseColourPlane cf s).andThen fun _ s =>
  (ue s).andThen fun w s =>
  (ue s).andThen fun h s =>
  (readBits 1 s).andThen fun f s =>
  (parseSize w h f s).andThen fun size s =>
  (ue s).andThen fun bl s =>
  (ue s).andThen fun bc s =>
    .value
      { width := size.1, height := size.2, profileSpace := ps.setWidth 2, tierFlag := tf.setWidth 1,
        profileIdc := pi.setWidth 5, levelIdc := li.setWidth 8, chromaFormatIdc := cf,
        bitDepthLuma := bitDepth bl, bitDepthChroma := bitDepth bc } s

/-- How a parse ends (60_exceptions.md R196), or how the model stops. -/
inductive ParseResult where
  | ok (r : SpsInfo)
  | err (k : ErrKind)
  | fault (f : Fault)
  | refused (r : Refusal)
  deriving DecidableEq, Repr

/-- `parse(buf, len, N)` (R172). -/
def parse (cfg : Config) (mem : Memory) (len : Word) : ParseResult :=
  match parseFrom (cursor cfg mem len) with
  | .value r _ => .ok r
  | .raised k _ => .err k
  | .fault f => .fault f
  | .refused r => .refused r

end Sys2Proof.Machine
end

