-- ==== Sys2Proof/Safety.lean ====
section
/-!
DEFINITION. The words claims are made in: what a buffer's bits are, independently of how the machine reads them; the
cases of one ue(v) code; the invariant of 10_state.md R40; which transitions are the host's.
-/

namespace Sys2Proof.Machine

/-! ## The buffer as bits -/

/-- The host placed every byte below `LEN` (its duty, 70_reset_and_hazards.md R225). -/
abbrev State.Present (s : State) : Prop := ∀ a < s.len.toNat, (s.mem.read a).isSome = true

/-- Stream bit `k` where its byte is there (20_memory.md R55, by division: `(byte div 2^(7 - k mod 8)) mod 2`). -/
def bitAt (m : Memory) (k : Nat) : Option Nat := (m.read (k / 8)).map fun b => b.toNat / 2 ^ (7 - k % 8) % 2

/-- Stream bit `k` as a number; claims that use it ask for the byte to be there. -/
def streamBit (m : Memory) (k : Nat) : Nat := (bitAt m k).getD 0

/-- The value of a `u(n)` at stream bit `p` (30_encoding.md R71): the sum of `bit(p + i) * 2^(n-1-i)`. -/
def streamValue (m : Memory) (p n : Nat) : Nat := ∑ i ∈ Finset.range n, streamBit m (p + i) * 2 ^ (n - 1 - i)

/-- The stream bits `p` to `p + n - 1`. -/
def streamBits (m : Memory) (p n : Nat) : List Bool := (List.range n).map fun i => decide (streamBit m (p + i) = 1)

/-- `z` zero bits from stream bit `p` on. -/
abbrev ZerosAt (m : Memory) (p z : Nat) : Prop := ∀ i < z, streamBit m (p + i) = 0

/-! ## The four cases of one ue(v) element (41_expgolomb.md R123, R124, R126) -/

/-- A whole code of class `k` stands at `OFF` (30_encoding.md R73). -/
abbrev State.CodeAt (s : State) (k : Nat) : Prop :=
  k ≤ 30 ∧ ZerosAt s.mem s.off k ∧ streamBit s.mem (s.off + k) = 1 ∧ s.off + 2 * k + 1 ≤ 8 * s.len.toNat

/-- Its value (R74). -/
def State.codeValue (s : State) (k : Nat) : Nat := 2 ^ k - 1 + streamValue s.mem (s.off + k + 1) k

/-- 31 zero bits stand at `OFF`. -/
abbrev State.TooLongAt (s : State) : Prop := ZerosAt s.mem s.off 31 ∧ s.off + 31 ≤ 8 * s.len.toNat

/-- `z <= 30` zero bits stand at `OFF` and then the buffer ends. -/
abbrev State.CountUnderrunAt (s : State) (z : Nat) : Prop :=
  z ≤ 30 ∧ ZerosAt s.mem s.off z ∧ s.off + z = 8 * s.len.toNat

/-- `k <= 30` zeros and the marker stand at `OFF`, and fewer than `k` bits are left after them. -/
abbrev State.SuffixUnderrunAt (s : State) (k : Nat) : Prop :=
  k ≤ 30 ∧ ZerosAt s.mem s.off k ∧ streamBit s.mem (s.off + k) = 1 ∧ s.off + k + 1 ≤ 8 * s.len.toNat ∧
    8 * s.len.toNat < s.off + 2 * k + 1

/-! ## Rows and registers -/

/-- The destination column of the table (10_state.md R21). -/
def destOf : Instr → Option FieldReg
  | .s5Pspace => some .pspace
  | .s6Tier => some .tier
  | .s7Pidc => some .pidc
  | .s10Level => some .level
  | .s12Chroma => some .chroma
  | .s14Picw => some .picw
  | .s15Pich => some .pich
  | .s16Cwf => some .cwf
  | .s17Cleft => some .cleft
  | .s18Cright => some .cright
  | .s19Ctop => some .ctop
  | .s20Cbot => some .cbot
  | .s21Bdlm8 => some .bdlm8
  | .s22Bdcm8 => some .bdcm8
  | .start _ => none
  | .readBits _ => none
  | .skip _ => none
  | .ue => none
  | .s1SkipN => none
  | .s2U4 => none
  | .s3U3 => none
  | .s4U1 => none
  | .s8Skip32 => none
  | .s9Skip16 => none
  | .s11Ue => none
  | .s13U1 => none
  | .s23Assemble => none

/-- The row is one of the steps S1 to S23. -/
def isStepRow (i : Instr) : Bool := (stepCode i).isSome

/-- The number of the step that writes a register (10_state.md R21, "written by step"). -/
def writerOf : FieldReg → Nat
  | .pspace => 5
  | .tier => 6
  | .pidc => 7
  | .level => 10
  | .chroma => 12
  | .picw => 14
  | .pich => 15
  | .cwf => 16
  | .cleft => 17
  | .cright => 18
  | .ctop => 19
  | .cbot => 20
  | .bdlm8 => 21
  | .bdcm8 => 22

/-- The register is one of the four offsets, written only when `x[CWF] = 1` (10_state.md R22). -/
def inWindow : FieldReg → Bool
  | .cleft => true
  | .cright => true
  | .ctop => true
  | .cbot => true
  | .pspace => false
  | .tier => false
  | .pidc => false
  | .level => false
  | .chroma => false
  | .picw => false
  | .pich => false
  | .cwf => false
  | .bdlm8 => false
  | .bdcm8 => false

/-- What a field register holds, as a number. -/
def fieldValue (f : Fields) : FieldReg → Option Nat
  | .pspace => f.pspace.map BitVec.toNat
  | .tier => f.tier.map BitVec.toNat
  | .pidc => f.pidc.map BitVec.toNat
  | .level => f.level.map BitVec.toNat
  | .chroma => f.chroma.map BitVec.toNat
  | .picw => f.picw.map BitVec.toNat
  | .pich => f.pich.map BitVec.toNat
  | .cwf => f.cwf.map BitVec.toNat
  | .cleft => f.cleft.map BitVec.toNat
  | .cright => f.cright.map BitVec.toNat
  | .ctop => f.ctop.map BitVec.toNat
  | .cbot => f.cbot.map BitVec.toNat
  | .bdlm8 => f.bdlm8.map BitVec.toNat
  | .bdcm8 => f.bdcm8.map BitVec.toNat

/-! ## What a step does, as a shape (42_sps_parser.md R142) -/

/-- Row `i` reads `u(n)`, makes the field registers `upd v`, and goes to `nxt` of them: it aborts with `BufferUnderrun`
and nothing else changed iff fewer than `n` bits remain. -/
def ReadsInto (i : Instr) (n : Nat) (upd : Nat → Fields → Fields) (nxt : Fields → StepName) : Prop :=
  ∀ s : State,
    (8 * s.len.toNat < s.off + n → exec i s = .next { s with phase := .error, err := some .bufferUnderrun }) ∧
    (s.off + n ≤ 8 * s.len.toNat → s.Present →
      exec i s = .next
        { s with
          off := s.off + n
          x := upd (streamValue s.mem s.off n) s.x
          step := nxt (upd (streamValue s.mem s.off n) s.x) })

/-- Row `i` passes over `n` bits and goes to `nxt`, or aborts as a read would. -/
def SkipsTo (i : Instr) (n : State → Nat) (nxt : StepName) : Prop :=
  ∀ s : State,
    (8 * s.len.toNat < s.off + n s → exec i s = .next { s with phase := .error, err := some .bufferUnderrun }) ∧
    (s.off + n s ≤ 8 * s.len.toNat → exec i s = .next { s with off := s.off + n s, step := nxt })

/-- Row `i` decodes one `ue(v)`, makes the field registers `upd v`, and goes to `nxt` of them; in the other three cases
it aborts with the kind and the `OFF` of 41_expgolomb.md R122 to R126. That `LZ` keeps the count is the model's choice (log
entry 25). -/
def DecodesInto (i : Instr) (upd : Nat → Fields → Fields) (nxt : Fields → StepName) : Prop :=
  ∀ s : State, s.Present →
    (∀ k, s.CodeAt k →
      exec i s = .next
        { s with
          off := s.off + 2 * k + 1
          lz := BitVec.ofNat 5 k
          x := upd (s.codeValue k) s.x
          step := nxt (upd (s.codeValue k) s.x) }) ∧
    (s.TooLongAt →
      exec i s = .next { s with off := s.off + 31, lz := 31, phase := .error, err := some .codeTooLong }) ∧
    (∀ z, s.CountUnderrunAt z →
      exec i s = .next
        { s with off := s.off + z, lz := BitVec.ofNat 5 z, phase := .error, err := some .bufferUnderrun }) ∧
    (∀ k, s.SuffixUnderrunAt k →
      exec i s = .next
        { s with off := s.off + k + 1, lz := BitVec.ofNat 5 k, phase := .error, err := some .bufferUnderrun })

/-! ## The invariant (10_state.md R40) -/

/-- `PHASE`, `STEP`, `ERR` and the presence of a record agree (R31, R40 (c) to (f), R29). -/
def PhaseInv (s : State) : Prop :=
  match s.phase with
  | .idle => s.step = .s0 ∧ s.err = none ∧ s.out = none
  | .busy => 1 ≤ s.step.index ∧ s.err = none ∧ s.out = none
  | .done => s.step = .s23 ∧ s.err = none ∧ ∃ r, assemble s.x = .ok r ∧ s.out = some r
  | .error => 1 ≤ s.step.index ∧ s.step.index ≤ 22 ∧ s.err.isSome = true ∧ s.out = none

/-- A field register holds a value iff its writing step has completed in the current parse (R40 (g)); the offset
registers only when `x[CWF] = 1` (R22). -/
def FieldsInv (s : State) : Prop :=
  ∀ r, (fieldValue s.x r).isSome = true ↔ writerOf r < s.step.index ∧ (inWindow r = true → s.x.cwf = some 1)

/-- A conditional step is reached only when its condition held (R141). -/
def BranchInv (s : State) : Prop :=
  (s.step = .s13 → s.x.chroma = some 3) ∧
    (17 ≤ s.step.index → s.step.index ≤ 20 → s.x.cwf = some 1)

/-- The cursor is inside the buffer (R24, R40 (a)), and the host's duty on `len` was met (R225). -/
def CursorInv (s : State) : Prop := s.off ≤ 8 * s.len.toNat ∧ 8 * s.len.toNat < 2 ^ 32

/-- No field register exceeds the largest ue(v) value (41_expgolomb.md R125). -/
def ValueInv (s : State) : Prop := ∀ r v, fieldValue s.x r = some v → v ≤ 2 ^ 31 - 2

/-- The invariant that every transition keeps. -/
structure Inv (s : State) : Prop where
  phase  : PhaseInv s
  fields : FieldsInv s
  branch : BranchInv s
  cursor : CursorInv s
  value  : ValueInv s
  mem    : s.mem.wf = true

/-! ## Runs -/

/-- A parse is over (60_exceptions.md R196). -/
def Ended (s : State) : Prop := s.phase = .done ∨ s.phase = .error

/-- `k` steps of the machine, stopping at the first fault or refusal. -/
def runSteps (k : Nat) (s : State) : Host.Outcome State Fault Refusal := Host.Core.run core k s

/-- `OFF` at the start of each step of the fixed part, with `N = NAL_SKIP_BITS` (70_reset_and_hazards.md R236). -/
def prefixOffset (N : Nat) : StepName → Option Nat
  | .s1 => some 0
  | .s2 => some N
  | .s3 => some (N + 4)
  | .s4 => some (N + 7)
  | .s5 => some (N + 8)
  | .s6 => some (N + 10)
  | .s7 => some (N + 11)
  | .s8 => some (N + 16)
  | .s9 => some (N + 48)
  | .s10 => some (N + 64)
  | .s11 => some (N + 72)
  | .s0 => none
  | .s12 => none
  | .s13 => none
  | .s14 => none
  | .s15 => none
  | .s16 => none
  | .s17 => none
  | .s18 => none
  | .s19 => none
  | .s20 => none
  | .s21 => none
  | .s22 => none
  | .s23 => none

/-- The invariant of R236: a running parse in the fixed part stands where R236 says. -/
def PrefixInv (s : State) : Prop :=
  s.phase = .busy → ∀ p, prefixOffset s.cfg.nalSkipBits.val s.step = some p → s.off = p

/-- The least and the most bits consumed at the start of each step, by the lengths of R235: a ue(v) is 1 to 61 bits, and
the code of `CHROMA = 3` is 5 (R237). -/
def consumedBounds (N : Nat) : StepName → Nat × Nat
  | .s0 => (0, 0)
  | .s1 => (0, 0)
  | .s2 => (N, N)
  | .s3 => (N + 4, N + 4)
  | .s4 => (N + 7, N + 7)
  | .s5 => (N + 8, N + 8)
  | .s6 => (N + 10, N + 10)
  | .s7 => (N + 11, N + 11)
  | .s8 => (N + 16, N + 16)
  | .s9 => (N + 48, N + 48)
  | .s10 => (N + 64, N + 64)
  | .s11 => (N + 72, N + 72)
  | .s12 => (N + 73, N + 133)
  | .s13 => (N + 78, N + 138)
  | .s14 => (N + 74, N + 194)
  | .s15 => (N + 75, N + 255)
  | .s16 => (N + 76, N + 316)
  | .s17 => (N + 77, N + 317)
  | .s18 => (N + 78, N + 378)
  | .s19 => (N + 79, N + 439)
  | .s20 => (N + 80, N + 500)
  | .s21 => (N + 77, N + 561)
  | .s22 => (N + 78, N + 622)
  | .s23 => (N + 79, N + 683)

/-- The invariant of R237. -/
def ConsumptionInv (s : State) : Prop :=
  (s.phase = .busy →
    (consumedBounds s.cfg.nalSkipBits.val s.step).1 ≤ s.off ∧ s.off ≤ (consumedBounds s.cfg.nalSkipBits.val s.step).2) ∧
  (s.phase = .done → s.cfg.nalSkipBits.val + 79 ≤ s.off ∧ s.off ≤ s.cfg.nalSkipBits.val + 683) ∧
  (s.phase = .error → s.off ≤ s.cfg.nalSkipBits.val + 683)

end Sys2Proof.Machine
end

