-- ==== Sys2Proof/Certificates/Slice0/Obligations.lean ====
section
/-!
DEFINITION. The statements for the provers. Each docstring names the rules of spec/ it formalises. Where a statement
rests on a choice of the model, its docstring names the log entry.
-/

open Sys2Proof Sys2Proof.Machine

/-! ## Decoding -/

/-- A few rows and elements written out by hand from 30_encoding.md R75, R77, R84 decode to what they stand for. -/
def Obligations.WrittenWordsDecode : Prop :=
  decode 32 ⟨false, 0, true, 5⟩ [false, true] = .ok (.s5Pspace, 1, []) ∧
  decode 32 ⟨false, 0, true, 7⟩ [false, false, false, true, false] = .ok (.s7Pidc, 2, []) ∧
  decode 32 ⟨false, 0, true, 9⟩ (List.replicate 16 true) = .ok (.s9Skip16, 0, []) ∧
  decode 32 ⟨false, 0, true, 12⟩ [false, false, true, false, false, true] = .ok (.s12Chroma, 3, [true]) ∧
  decode 32 ⟨false, 0, true, 18⟩ [false, false, false, true, false, false, true] = .ok (.s18Cright, 8, []) ∧
  decode 32 ⟨false, 0, true, 20⟩ [false, false, true, false, true] = .ok (.s20Cbot, 4, []) ∧
  decode 32 ⟨true, 20, false, 0⟩ [] = .ok (.start 20, 0, []) ∧
  decode 32 ⟨false, 0, true, 11⟩ (List.replicate 31 false) = .error .codeTooLong ∧
  decode 32 ⟨false, 0, true, 24⟩ [] = .error (.noSuchStep 24)

/-- Decode and encode agree: every well-formed row that anything selects (all but READBITS, SKIP and UE, which only a
step issues, R38, R70), with every value its format carries (R71 to R76), whatever bits follow. -/
def Obligations.DecodeOfEncode : Prop :=
  (∀ i : Instr, encodeSelector i = none ↔ ((∃ n, i = .readBits n) ∨ (∃ n, i = .skip n) ∨ i = .ue)) ∧
  ∀ (skipN : Nat) (i : Instr) (v : Nat) (sel : Selector) (bits rest : List Bool),
    i.wellFormed = true → (i.format skipN).valueOk v = true → encode skipN i v = some (sel, bits) →
      decode skipN sel (bits ++ rest) = .ok (i, v, rest)

/-- 30_encoding.md section 2 (the table of classes, the spec's own inference): the classes of ue(v) codes, with the code of each value, and that every value has exactly one
code and every code one value. -/
def Obligations.UeCodesAndValuesCorrespond : Prop :=
  (∀ k v : Nat, k ≤ 30 → 2 ^ k - 1 ≤ v → v ≤ 2 ^ (k + 1) - 2 →
    encodeUe v = List.replicate k false ++ true :: encodeU k (v + 1 - 2 ^ k) ∧ (encodeUe v).length = 2 * k + 1) ∧
  (∀ (v : Nat) (rest : List Bool), v ≤ 2 ^ 31 - 2 → decodeUe (encodeUe v ++ rest) = .ok (v, rest)) ∧
  (∀ (bits : List Bool) (v : Nat) (rest : List Bool), decodeUe bits = .ok (v, rest) →
    v ≤ 2 ^ 31 - 2 ∧ bits = encodeUe v ++ rest) ∧
  (∀ rest : List Bool, decodeUe (List.replicate 31 false ++ rest) = .error .codeTooLong)

/-! ## Steps of the machine, reset and the host -/

/-- A step runs the row that the decoder selects: with no host move in store the row of `STEP`; with a `clock` move that
asserts `start`, START; in both cases `exec` of it, the move taken off the host's list. -/
def Obligations.StepRunsDecodedRow : Prop :=
  (∀ (s : State) (i : Instr), s.host = [] → s.phase = .busy → decodeStep s.step.code = .ok i → step s = exec i s) ∧
  (∀ (s : State) (i : Instr) (len : Word) (rest : List HostMove), s.host = .clock false false len :: rest →
    s.phase = .busy → decodeStep s.step.code = .ok i → step s = exec i { s with host := rest }) ∧
  (∀ (s : State) (len : Word) (rest : List HostMove), s.host = .clock false true len :: rest →
    step s = exec (.start len) { s with host := rest })

/-- R206: in `IDLE`, `DONE` and `ERROR` the block does nothing until a START or a reset, and all state survives: a step
without either changes nothing of the block; the buffer changes only where the host places one. -/
def Obligations.NothingMovesOutsideBusy : Prop :=
  ∀ s : State, s.phase ≠ .busy →
    (∀ rst start len rest, s.host = .clock rst start len :: rest → rst = false ∧ start = false) →
    ∃ m, step s = .next { s with mem := m, host := s.host.tail } ∧
      ((∀ bytes rest, s.host ≠ .place bytes :: rest) → m = s.mem)

/-- R41 (every value is the spec's own choice, 92_eei_decisions.md D3): the registers after power-on reset. `LZ`, which the
table leaves unspecified, is not spoken of. -/
def Obligations.ResetLeavesTheSpecsValues : Prop :=
  State.reset.phase = .idle ∧ State.reset.err = none ∧ State.reset.step = .s0 ∧ State.reset.off = 0 ∧
  State.reset.len = 0 ∧ (∀ r, fieldValue State.reset.x r = none) ∧ State.reset.out = none

/-- R220 (the spec's own choice D3): `rst` from any state, over a START asserted with it; the
host's buffer and later moves and the configuration stay. -/
def Obligations.ResetFromAnyState : Prop :=
  ∀ (s : State) (start : Bool) (len : Word) (rest : List HostMove), s.host = .clock true start len :: rest →
    ∃ t, step s = .next t ∧ t.phase = .idle ∧ t.err = none ∧ t.step = .s0 ∧ t.off = 0 ∧ t.len = 0 ∧
      (∀ r, fieldValue t.x r = none) ∧ t.out = none ∧ t.cfg = s.cfg ∧ t.mem = s.mem ∧ t.host = rest

/-- R223 (a), R54: the host places a buffer outside `BUSY`: byte `i` of it is what address `i` reads as, and nothing of the
block changes. The model's own choices: that a byte beyond the buffer reads as nothing (log entry 10), that the buffer starts
at address 0 and an earlier one is gone (log entry 24), and that in `BUSY` the move is refused (after R226, U4, log entry
11). -/
def Obligations.HostPlacesBuffer : Prop :=
  ∀ (s : State) (bytes : List Byte) (rest : List HostMove), s.host = .place bytes :: rest →
    (s.phase ≠ .busy →
      ∃ m, step s = .next { s with mem := m, host := rest } ∧ m.wf = true ∧ ∀ a, m.read a = bytes[a]?) ∧
    (s.phase = .busy → step s = .refused .bufferChanged)

/-- R35, with the state of R42 (the spec's own choice D11): START outside `BUSY` is accepted, with every register the rule
names (LZ is left free); in `BUSY` it is ignored. The premise `8*len < 2^32` is the host's duty of R225. The model's own field
`ret` is no register of the block (log entry 5). -/
def Obligations.StartAcceptedOrIgnored : Prop :=
  ∀ (s : State) (len : Word),
    (s.phase ≠ .busy → 8 * len.toNat < 2 ^ 32 →
      ∃ t, exec (.start len) s = .next t ∧ t.phase = .busy ∧ t.err = none ∧ t.step = .s1 ∧ t.off = 0 ∧ t.len = len ∧
        (∀ r, fieldValue t.x r = none) ∧ t.out = none ∧
        t.cfg = s.cfg ∧ t.ret = s.ret ∧ t.mem = s.mem ∧ t.host = s.host) ∧
    (s.phase = .busy → exec (.start len) s = .next s)

/-- R225, U5 (log entry 9): a START that would be accepted with `8*len >= 2^32` has no meaning. -/
def Obligations.StartRefusesTooLargeLen : Prop :=
  ∀ (s : State) (len : Word), s.phase ≠ .busy → 2 ^ 32 ≤ 8 * len.toNat →
    exec (.start len) s = .refused (.lenTooLarge len)

/-! ## The buffer and BitCursor -/

/-- R55: stream bit `k` is bit `7 - (k mod 8)` of byte `k div 8`. -/
def Obligations.StreamBitMapping : Prop :=
  ∀ (s : State) (k : Nat) (b : Byte), k < 8 * s.len.toNat → s.mem.read (k / 8) = some b →
    s.bit k = .ok (decide (b.toNat / 2 ^ (7 - k % 8) % 2 = 1))

/-- R52: a read at or beyond `LEN` has no meaning; below it, it gives the byte there. -/
def Obligations.MemReadOnlyBelowLen : Prop :=
  ∀ (s : State) (addr : Nat),
    (s.len.toNat ≤ addr → s.memRead addr = .error (.beyondLen addr)) ∧
    (∀ b, addr < s.len.toNat → s.mem.read addr = some b → s.memRead addr = .ok b)

/-- After R100, R101, R102: READBITS(n) fails iff fewer than `n` bits remain, and then changes nothing but by the abort; else
it delivers the `n` bits most significant first, as the sum of R71, and moves `OFF` by `n`. That a READBITS run by itself
keeps the value in the field `ret` is the model's choice (log entry 5). -/
def Obligations.ReadBitsEffect : Prop :=
  ∀ (s : State) (n : Nat), 1 ≤ n → n ≤ 32 →
    (8 * s.len.toNat < s.off + n →
      exec (.readBits n) s = .next { s with phase := .error, err := some .bufferUnderrun }) ∧
    (s.off + n ≤ 8 * s.len.toNat → s.Present →
      streamValue s.mem s.off n < 2 ^ n ∧
      exec (.readBits n) s = .next
        { s with off := s.off + n, ret := some (BitVec.ofNat 32 (streamValue s.mem s.off n)) })

/-- R103 (its second half is the spec's own inference from R100): a READBITS that fits moves `OFF` by exactly `n` and
returns a value below `2^n`; two reads of `a` and `b` bits give what one read of `a + b` bits gives; they succeed iff it
does; when the second fails the pair has advanced `OFF` by `a` and the single read has not. -/
def Obligations.ReadBitsSplits : Prop :=
  (∀ (s : State) (n : Nat), 1 ≤ n → n ≤ 32 → s.off + n ≤ 8 * s.len.toNat → s.Present →
    ∃ v : Word, v.toNat < 2 ^ n ∧ readBits n s = .value v (s.setOff (s.off + n))) ∧
  ∀ (s : State) (a b : Nat), 1 ≤ a → 1 ≤ b → a + b ≤ 32 → s.Present →
    (s.off + (a + b) ≤ 8 * s.len.toNat →
      ∃ va vb : Word, va.toNat < 2 ^ a ∧ vb.toNat < 2 ^ b ∧
        readBits a s = .value va (s.setOff (s.off + a)) ∧
        readBits b (s.setOff (s.off + a)) = .value vb (s.setOff (s.off + a + b)) ∧
        readBits (a + b) s = .value ((va <<< b) ||| vb) (s.setOff (s.off + (a + b)))) ∧
    (8 * s.len.toNat < s.off + (a + b) → readBits (a + b) s = .raised .bufferUnderrun s) ∧
    (8 * s.len.toNat < s.off + a → readBits a s = .raised .bufferUnderrun s) ∧
    (8 * s.len.toNat < s.off + (a + b) → s.off + a ≤ 8 * s.len.toNat →
      ∃ va, readBits a s = .value va (s.setOff (s.off + a)) ∧
        readBits b (s.setOff (s.off + a)) = .raised .bufferUnderrun (s.setOff (s.off + a)))

/-- R107 (the spec's own decision D19, log entry 12): READBITS outside 1 to 32 bits is refused, and no step ever issues one. -/
def Obligations.ReadWidthRefused : Prop :=
  (∀ (s : State) (n : Nat), n = 0 ∨ 32 < n → exec (.readBits n) s = .refused (.readWidth n)) ∧
  (∀ (s : State) (i : Instr) (r : Refusal), isStepRow i = true → exec i s ≠ .refused r)

/-- R104, R105 (that a skip is bounds-checked is the spec's own decision D5): SKIP(n) moves `OFF` by `n` and reads nothing, or fails as a read does. -/
def Obligations.SkipEffect : Prop :=
  ∀ (s : State) (n : Nat),
    (8 * s.len.toNat < s.off + n →
      exec (.skip n) s = .next { s with phase := .error, err := some .bufferUnderrun }) ∧
    (s.off + n ≤ 8 * s.len.toNat → exec (.skip n) s = .next { s with off := s.off + n })

/-- 30_encoding.md section 5, pseudo-operations (the spec's own inference): for `1 <= n <= 32`, SKIP n leaves the same registers and raises the same error in the same cases as a
READBITS n whose value is discarded. -/
def Obligations.SkipIsDiscardedRead : Prop :=
  ∀ (s : State) (n : Nat), 1 ≤ n → n ≤ 32 → s.Present →
    (∀ s', skip n s = .value () s' ↔ ∃ v, readBits n s = .value v s') ∧
    (∀ k s', skip n s = .raised k s' ↔ readBits n s = .raised k s')

/-- 20_memory.md section 2 (the spec's own inference from R55 and R100): a byte-aligned 32-bit read returns the four bytes,
the lowest address highest. The value is kept in the model's field `ret` (log entry 5). -/
def Obligations.AlignedWordIsBigEndian : Prop :=
  ∀ (s : State) (a : Nat) (b0 b1 b2 b3 : Byte), s.off = 8 * a → a + 4 ≤ s.len.toNat →
    s.mem.read a = some b0 → s.mem.read (a + 1) = some b1 → s.mem.read (a + 2) = some b2 →
    s.mem.read (a + 3) = some b3 →
    exec (.readBits 32) s = .next { s with off := s.off + 32, ret := some (b0 ++ b1 ++ b2 ++ b3) }

/-- 20_memory.md section 3: READBITS uses bytes `OFF div 8` to `(OFF + n - 1) div 8` only, at most 5 of them: another buffer with the same
bytes there gives the same outcome. -/
def Obligations.ReadUsesOnlyItsBytes : Prop :=
  ∀ (s : State) (n : Nat) (m : Memory), 1 ≤ n → n ≤ 32 →
    (s.off + n - 1) / 8 + 1 - s.off / 8 = (s.off % 8 + n + 7) / 8 ∧ (s.off % 8 + n + 7) / 8 ≤ 5 ∧
    ((∀ a, s.off / 8 ≤ a → a ≤ (s.off + n - 1) / 8 → m.read a = s.mem.read a) →
      (∀ t, exec (.readBits n) s = .next t → exec (.readBits n) { s with mem := m } = .next { t with mem := m }) ∧
      (∀ f, exec (.readBits n) s = .fault f → exec (.readBits n) { s with mem := m } = .fault f))

/-- U5, R225 (log entry 10): a read that is in bounds but needs a byte the host never placed stops at the first such
byte. -/
def Obligations.AbsentByteStopsRead : Prop :=
  ∀ (s : State) (n a : Nat), 1 ≤ n → n ≤ 32 → s.off + n ≤ 8 * s.len.toNat →
    s.off / 8 ≤ a → a ≤ (s.off + n - 1) / 8 → s.mem.read a = none →
    (∀ b, s.off / 8 ≤ b → b < a → (s.mem.read b).isSome = true) →
    exec (.readBits n) s = .fault (.byteAbsent a)

/-! ## UE -/

/-- 41_expgolomb.md section 1 and 30_encoding.md section 2 (the spec's own inference): what UE delivers, with the count it
leaves in `LZ`, is `2^LZ - 1 + suffix` exactly, without wrap-around; it lies in `2^LZ - 1 .. 2^(LZ+1) - 2`, and no value
exceeds `2^31 - 2`. That `LZ` still holds the count after UE is the model's choice (log entry 25). -/
def Obligations.UeValueRange : Prop :=
  ∀ (s s' : State) (v : Word), ue s = .value v s' →
    s'.lz.toNat ≤ 30 ∧
    v.toNat = 2 ^ s'.lz.toNat - 1 + streamValue s.mem (s.off + s'.lz.toNat + 1) s'.lz.toNat ∧
    2 ^ s'.lz.toNat - 1 ≤ v.toNat ∧ v.toNat ≤ 2 ^ (s'.lz.toNat + 1) - 2 ∧ v.toNat ≤ 2 ^ 31 - 2

/-- After R122 (the moment is the spec's own decision D6, log entry 13): the 31st zero bit raises `CodeTooLong` with `OFF` 31 past
the start, before any further bit is read (no other byte need be there), also where the buffer ends there. That `LZ` stays
31 is the model's choice (log entry 25). -/
def Obligations.UeTooLongAtThe31stZero : Prop :=
  ∀ s : State, s.off + 31 ≤ 8 * s.len.toNat → (∀ i < 31, bitAt s.mem (s.off + i) = some 0) →
    exec .ue s = .next { s with off := s.off + 31, lz := 31, phase := .error, err := some .codeTooLong }

/-- After R120, R121, R123, R124, R127, R74 (the tie of the two errors is the spec's own decision D6, log entry 13): a whole code
of class `k` is decoded to `2^k - 1 + suffix`, at most `2^31 - 2`, with `OFF` moved by `2*k + 1` in all and `LZ = k`; the
table of what follows `z` zeros; the suffix that underruns; and the four cases are all there are. That `LZ` keeps the count
after UE has ended, and that the value is kept in the field `ret`, are the model's choices (log entries 25 and 5). -/
def Obligations.UeFourCases : Prop :=
  ∀ s : State, s.Present →
    (∀ k, s.CodeAt k →
      s.codeValue k ≤ 2 ^ 31 - 2 ∧
      exec .ue s = .next
        { s with
          off := s.off + 2 * k + 1
          lz := BitVec.ofNat 5 k
          ret := some (BitVec.ofNat 32 (s.codeValue k)) }) ∧
    (s.TooLongAt →
      exec .ue s = .next { s with off := s.off + 31, lz := 31, phase := .error, err := some .codeTooLong }) ∧
    (∀ z, s.CountUnderrunAt z →
      exec .ue s = .next
        { s with off := s.off + z, lz := BitVec.ofNat 5 z, phase := .error, err := some .bufferUnderrun }) ∧
    (∀ k, s.SuffixUnderrunAt k →
      exec .ue s = .next
        { s with off := s.off + k + 1, lz := BitVec.ofNat 5 k, phase := .error, err := some .bufferUnderrun }) ∧
    (s.off ≤ 8 * s.len.toNat →
      (∃ k, s.CodeAt k) ∨ s.TooLongAt ∨ (∃ z, s.CountUnderrunAt z) ∨ (∃ k, s.SuffixUnderrunAt k))

/-- 41_expgolomb.md section 2 (the range beyond `2^16` is the spec's own inference): UE is the inverse of the encoding on
`0 .. 2^31 - 2`, at every `OFF`, whatever bits follow. The value is kept in the model's field `ret` (log entry 5). -/
def Obligations.UeRoundTrip : Prop :=
  ∀ (s : State) (x : Nat), x ≤ 2 ^ 31 - 2 → s.Present →
    s.off + (encodeUe x).length ≤ 8 * s.len.toNat →
    streamBits s.mem s.off (encodeUe x).length = encodeUe x →
    ∃ t, exec .ue s = .next t ∧ t.ret = some (BitVec.ofNat 32 x) ∧ t.off = s.off + (encodeUe x).length ∧
      t.phase = s.phase ∧ t.err = s.err

/-- The bit-by-bit UE of the machine and the format decoder of ue(v) agree on every buffer: same value and same bits
left, or the same one of the two errors. -/
def Obligations.UeAgreesWithFormatDecoder : Prop :=
  ∀ s : State, s.Present → s.off ≤ 8 * s.len.toNat →
    match decodeUe (streamBits s.mem s.off (8 * s.len.toNat - s.off)) with
    | .ok (v, rest) => ∃ s', ue s = .value (BitVec.ofNat 32 v) s' ∧
        rest = streamBits s.mem s'.off (8 * s.len.toNat - s'.off)
    | .error .codeTooLong => ∃ s', ue s = .raised .codeTooLong s'
    | .error .truncated => ∃ s', ue s = .raised .bufferUnderrun s'
    | .error _ => False

/-! ## The steps -/

/-- R143, R150, R151: S1, S8 and S9 pass over `NAL_SKIP_BITS`, 32 and 16 bits. -/
def Obligations.SkippingSteps : Prop :=
  SkipsTo .s1SkipN (fun s => s.cfg.nalSkipBits.val) .s2 ∧
  SkipsTo .s8Skip32 (fun _ => 32) .s9 ∧
  SkipsTo .s9Skip16 (fun _ => 16) .s10

/-- R144, R145, R146: S2, S3 and S4 read 4, 3 and 1 bits and discard them. -/
def Obligations.DiscardingReads : Prop :=
  ReadsInto .s2U4 4 (fun _ f => f) (fun _ => .s3) ∧
  ReadsInto .s3U3 3 (fun _ f => f) (fun _ => .s4) ∧
  ReadsInto .s4U1 1 (fun _ f => f) (fun _ => .s5)

/-- R147, R148, R149, R152: S5, S6, S7 and S10 read 2, 1, 5 and 8 bits into `PSPACE`, `TIER`, `PIDC` and `LEVEL`. -/
def Obligations.ProfileReads : Prop :=
  ReadsInto .s5Pspace 2 (fun v f => { f with pspace := some (BitVec.ofNat 2 v) }) (fun _ => .s6) ∧
  ReadsInto .s6Tier 1 (fun v f => { f with tier := some (BitVec.ofNat 1 v) }) (fun _ => .s7) ∧
  ReadsInto .s7Pidc 5 (fun v f => { f with pidc := some (BitVec.ofNat 5 v) }) (fun _ => .s8) ∧
  ReadsInto .s10Level 8 (fun v f => { f with level := some (BitVec.ofNat 8 v) }) (fun _ => .s11)

/-- After R154, R155: S12 decodes into `CHROMA` and goes to S13 iff it equals 3, else to S14; S13 reads one bit, discards it and
goes to S14. The `LZ` left is the model's choice (log entry 25). -/
def Obligations.ChromaBranch : Prop :=
  DecodesInto .s12Chroma (fun v f => { f with chroma := some (BitVec.ofNat 32 v) })
    (fun f => if f.chroma = some 3 then .s13 else .s14) ∧
  ReadsInto .s13U1 1 (fun _ f => f) (fun _ => .s14)

/-- After R153, R156, R157: S11 decodes and discards; S14 and S15 decode into `PICW` and `PICH`. The `LZ` left is the
model's choice (log entry 25). -/
def Obligations.PictureSizeSteps : Prop :=
  DecodesInto .s11Ue (fun _ f => f) (fun _ => .s12) ∧
  DecodesInto .s14Picw (fun v f => { f with picw := some (BitVec.ofNat 32 v) }) (fun _ => .s15) ∧
  DecodesInto .s15Pich (fun v f => { f with pich := some (BitVec.ofNat 32 v) }) (fun _ => .s16)

/-- After R158 to R162: S16 reads one bit into `CWF` and goes to S17 iff it is 1, else to S21; S17 to S20 decode the left, right,
top and bottom offsets, in that order. The `LZ` left is the model's choice (log entry 25). -/
def Obligations.ConformanceWindowSteps : Prop :=
  ReadsInto .s16Cwf 1 (fun v f => { f with cwf := some (BitVec.ofNat 1 v) })
    (fun f => if f.cwf = some 1 then .s17 else .s21) ∧
  DecodesInto .s17Cleft (fun v f => { f with cleft := some (BitVec.ofNat 32 v) }) (fun _ => .s18) ∧
  DecodesInto .s18Cright (fun v f => { f with cright := some (BitVec.ofNat 32 v) }) (fun _ => .s19) ∧
  DecodesInto .s19Ctop (fun v f => { f with ctop := some (BitVec.ofNat 32 v) }) (fun _ => .s20) ∧
  DecodesInto .s20Cbot (fun v f => { f with cbot := some (BitVec.ofNat 32 v) }) (fun _ => .s21)

/-- After R163, R164: S21 and S22 decode the two bit depths. The `LZ` left is the model's choice (log entry 25). -/
def Obligations.BitDepthSteps : Prop :=
  DecodesInto .s21Bdlm8 (fun v f => { f with bdlm8 := some (BitVec.ofNat 32 v) }) (fun _ => .s22) ∧
  DecodesInto .s22Bdcm8 (fun v f => { f with bdcm8 := some (BitVec.ofNat 32 v) }) (fun _ => .s23)

/-- R165, R166: S23 writes all nine result registers and `PHASE <- DONE` at once, everything else unchanged; the four
offsets are read only when `x[CWF] = 1`, and need not hold a value otherwise. -/
def Obligations.AssembleWritesTheRecord : Prop :=
  ∀ (s : State) (ps : BitVec 2) (tf : BitVec 1) (pi : BitVec 5) (li : BitVec 8) (cf w h bl bc : Word),
    s.x.pspace = some ps → s.x.tier = some tf → s.x.pidc = some pi → s.x.level = some li → s.x.chroma = some cf →
    s.x.picw = some w → s.x.pich = some h → s.x.bdlm8 = some bl → s.x.bdcm8 = some bc →
    (∀ l r t b : Word, s.x.cwf = some 1 → s.x.cleft = some l → s.x.cright = some r → s.x.ctop = some t →
      s.x.cbot = some b →
      exec .s23Assemble s = .next
        { s with
          phase := .done
          out := some ⟨w - (l + r), h - (t + b), ps, tf, pi, li, cf, bl + 8, bc + 8⟩ }) ∧
    (s.x.cwf = some 0 →
      exec .s23Assemble s = .next { s with phase := .done, out := some ⟨w, h, ps, tf, pi, li, cf, bl + 8, bc + 8⟩ })

/-- 42_sps_parser.md section 8 (the wrap is the spec's own decision D7, log entry 14): with field values no larger than a ue(v) value (the invariant's part `value`), neither the sums of the
offsets nor the bit depths wrap; the subtraction does, modulo `2^32`, exactly when the sum exceeds the dimension. -/
def Obligations.AssembleArithmetic : Prop :=
  ∀ (s t : State) (r : SpsInfo) (w h l ri tp bo bl bc : Nat), ValueInv s → exec .s23Assemble s = .next t → t.out = some r →
    fieldValue s.x .picw = some w → fieldValue s.x .pich = some h →
    fieldValue s.x .bdlm8 = some bl → fieldValue s.x .bdcm8 = some bc →
    r.bitDepthLuma.toNat = bl + 8 ∧ r.bitDepthChroma.toNat = bc + 8 ∧
    (fieldValue s.x .cwf = some 1 → fieldValue s.x .cleft = some l → fieldValue s.x .cright = some ri →
      fieldValue s.x .ctop = some tp → fieldValue s.x .cbot = some bo →
      l + ri ≤ 2 ^ 32 - 4 ∧ tp + bo ≤ 2 ^ 32 - 4 ∧
      r.width.toNat = (if l + ri ≤ w then w - (l + ri) else w + 2 ^ 32 - (l + ri)) ∧
      r.height.toNat = (if tp + bo ≤ h then h - (tp + bo) else h + 2 ^ 32 - (tp + bo)))

/-- 00_scope.md section 5, "Holds no value" (a fault by the spec's own decision D10, log entry 2): S23 stops
exactly when a register it reads holds no value (an offset only when `x[CWF] = 1`), and names such a one. -/
def Obligations.AssembleStopsOnNoValue : Prop :=
  ∀ s : State,
    (∀ f, exec .s23Assemble s = .fault f →
      ∃ r, f = .noValue r ∧ fieldValue s.x r = none ∧ (inWindow r = true → s.x.cwf = some 1)) ∧
    (∀ r, fieldValue s.x r = none → (inWindow r = true → s.x.cwf = some 1) → ∃ f, exec .s23Assemble s = .fault f)

/-- R169: the only transfers. A step that goes on leaves `STEP` at the following step but for S12 and S16; S23 alone
completes, with `STEP` kept; a step that raises keeps `STEP`. -/
def Obligations.SequencerTransfers : Prop :=
  ∀ s t : State, s.host = [] → s.phase = .busy → step s = .next t →
    (t.phase = .busy ∧ t.step.index =
      (if s.step = .s12 then (if t.x.chroma = some 3 then 13 else 14)
       else if s.step = .s16 then (if t.x.cwf = some 1 then 17 else 21)
       else s.step.index + 1)) ∨
    (t.phase = .done ∧ s.step = .s23 ∧ t.step = .s23) ∨
    (t.phase = .error ∧ s.step ≠ .s23 ∧ t.step = s.step)

/-- After 60_exceptions.md R190, R191, R194: what a row that has ended in `ERROR` has left (`OUT.*` hold no value because they
held none, part `PhaseInv`), and by which row each kind can have been raised: `CodeTooLong` by the ten UE steps only,
`BufferUnderrun` by any row but S23. That every raise does end in `ERROR` is said by the statements on the steps
(`SkippingSteps` to `BitDepthSteps`); here it is the premise. The `LZ` left is the model's choice (log entry 25). -/
def Obligations.AbortLeaves : Prop :=
  ∀ (s t : State) (i : Instr), isStepRow i = true → s.phase = .busy → exec i s = .next t → t.phase = .error →
    t.step = s.step ∧ t.x = s.x ∧ t.len = s.len ∧ t.out = s.out ∧ (PhaseInv s → t.out = none) ∧
    ((t.err = some .bufferUnderrun ∧ i ≠ .s23Assemble) ∨
      (t.err = some .codeTooLong ∧ i.format s.cfg.nalSkipBits.val = .ue ∧ t.off = s.off + 31)) ∧
    (i.format s.cfg.nalSkipBits.val ≠ .ue → t.off = s.off ∧ t.lz = s.lz) ∧
    (i.format s.cfg.nalSkipBits.val = .ue →
      ∃ k s', ue s = .raised k s' ∧ t.err = some k ∧ t.off = s'.off ∧ t.lz = s'.lz)

/-! ## Frames -/

/-- Frame of S1 to S22: nothing changes but `OFF` (never down), the row's own destination register, `STEP`, `LZ` in a UE
step, and `PHASE` with `ERR` in a raise. Every byte reads as before. -/
def Obligations.StepRowFrame : Prop :=
  ∀ (s t : State) (i : Instr), isStepRow i = true → i ≠ .s23Assemble → exec i s = .next t →
    (∀ r, destOf i ≠ some r → fieldValue t.x r = fieldValue s.x r) ∧
    s.off ≤ t.off ∧ (i.format s.cfg.nalSkipBits.val ≠ .ue → t.lz = s.lz) ∧
    ((t.phase = s.phase ∧ t.err = s.err) ∨ (t.phase = .error ∧ t.err ≠ none ∧ t.step = s.step ∧ t.x = s.x)) ∧
    t.cfg = s.cfg ∧ t.len = s.len ∧ t.out = s.out ∧ t.ret = s.ret ∧ t.host = s.host ∧ t.draws = s.draws ∧
    ∀ a, t.mem.read a = s.mem.read a

/-- Frame of READBITS, SKIP and UE: nothing changes but `OFF` (never down), `LZ` in UE, the model's `ret` (log entry 5), and
`PHASE` with `ERR` in a raise. Every byte reads as before. -/
def Obligations.OperationFrame : Prop :=
  ∀ (s t : State) (i : Instr), ((∃ n, i = .readBits n) ∨ (∃ n, i = .skip n) ∨ i = .ue) → exec i s = .next t →
    t.x = s.x ∧ t.step = s.step ∧ s.off ≤ t.off ∧ (i ≠ .ue → t.lz = s.lz) ∧
    ((t.phase = s.phase ∧ t.err = s.err) ∨ (t.phase = .error ∧ t.err ≠ none ∧ t.ret = s.ret)) ∧
    t.cfg = s.cfg ∧ t.len = s.len ∧ t.out = s.out ∧ t.host = s.host ∧ t.draws = s.draws ∧
    ∀ a, t.mem.read a = s.mem.read a

/-- Frame of S23: nothing changes but the result registers and `PHASE`. Every byte reads as before. -/
def Obligations.AssembleFrame : Prop :=
  ∀ s t : State, exec .s23Assemble s = .next t →
    t.x = s.x ∧ t.step = s.step ∧ t.off = s.off ∧ t.lz = s.lz ∧ t.err = s.err ∧ t.cfg = s.cfg ∧ t.len = s.len ∧
    t.ret = s.ret ∧ t.host = s.host ∧ t.draws = s.draws ∧ ∀ a, t.mem.read a = s.mem.read a

/-- R53, R33: no transition changes a byte of the buffer but the host's own placing of one, and none changes the
configuration. -/
def Obligations.BufferOnlyChangedByHost : Prop :=
  ∀ s t : State, step s = .next t →
    t.cfg = s.cfg ∧
    ((∀ bytes rest, s.host ≠ .place bytes :: rest) → ∀ a, t.mem.read a = s.mem.read a)

/-- R24, R40 (b), R106: only the host lowers `OFF` (by START or reset). -/
def Obligations.CursorNeverGoesBack : Prop :=
  ∀ s t : State, s.host = [] → step s = .next t → s.off ≤ t.off

/-! ## The whole machine -/

/-- The invariants at reset (10_state.md section 9; 70_reset_and_hazards.md section 5; the reset values are the spec's own
choice D3). -/
def Obligations.ResetMeetsInvariant : Prop :=
  Inv State.reset ∧ PrefixInv State.reset ∧ ConsumptionInv State.reset

/-- 10_state.md section 9 (the spec's own inference from its rules), with R22, R24, R29 and the largest value of
41_expgolomb.md section 1: every transition, the host's included, keeps the invariant. -/
def Obligations.EveryStepKeepsInvariant : Prop := ∀ s t : State, Inv s → step s = .next t → Inv t

/-- 70_reset_and_hazards.md section 5 (the spec's own inference): a running parse in the fixed part stands where the rule says. -/
def Obligations.EveryStepKeepsPrefixOffsets : Prop :=
  ∀ s t : State, PrefixInv s → step s = .next t → PrefixInv t

/-- 42_sps_parser.md section 9 and 20_memory.md section 1 (the spec's own inferences, that no register without a value and
no byte beyond the buffer is read): from a state that meets the invariant a step stops only for what the host did: a byte it never
placed (log entry 10), a `len` too large (log entry 9), a buffer changed during a parse (log entry 11). In particular no step reads a register without a value. -/
def Obligations.OnlyTheHostCausesStops : Prop :=
  ∀ s : State, Inv s →
    (∀ f, step s = .fault f → ∃ a, f = .byteAbsent a ∧ a < s.len.toNat ∧ s.mem.read a = none) ∧
    (∀ r, step s = .refused r →
      (∃ len rest, s.host = .clock false true len :: rest ∧ r = .lenTooLarge len ∧ 2 ^ 32 ≤ 8 * len.toNat) ∨
      (∃ bytes rest, s.host = .place bytes :: rest ∧ r = .bufferChanged ∧ s.phase = .busy))

/-- 42_sps_parser.md section 9 (the spec's own inference) and R196: a parse left alone, on a buffer that is there, ends in `DONE` or `ERROR` within 23 steps. -/
def Obligations.EveryParseEnds : Prop :=
  ∀ s : State, Inv s → s.host = [] → s.phase = .busy → s.Present →
    ∃ k t, k ≤ 23 ∧ runSteps k s = .next t ∧ Ended t

/-- 42_sps_parser.md section 10 (the spec's own inference from its steps): the run of the steps from an accepted START and the parse as one function agree, in the record, in the kind of
error, and where the model stops. -/
def Obligations.StepsRefineTheParse : Prop :=
  ∀ (s : State) (len : Word), s.phase ≠ .busy → 8 * len.toNat < 2 ^ 32 → s.host = [.clock false true len] →
    match parse s.cfg s.mem len with
    | .ok r => ∃ t, runSteps 24 s = .next t ∧ t.phase = .done ∧ t.err = none ∧ t.out = some r
    | .err k => ∃ t, runSteps 24 s = .next t ∧ t.phase = .error ∧ t.err = some k ∧ t.out = none
    | .fault f => runSteps 24 s = .fault f
    | .refused _ => False

/-- 10_state.md section 10, 20_memory.md section 4, 60_exceptions.md section 4 (the spec's own inferences): a parse depends on the buffer, on `len` and on `NAL_SKIP_BITS` alone: two instances that share these
show the host the same after any number of steps, whatever came before. -/
def Obligations.ParseForgetsThePast : Prop :=
  ∀ (s1 s2 t1 : State) (len : Word) (k : Nat), s1.phase ≠ .busy → s2.phase ≠ .busy → 8 * len.toNat < 2 ^ 32 →
    s1.host = [.clock false true len] → s2.host = [.clock false true len] → s1.cfg = s2.cfg → s1.mem = s2.mem →
    runSteps (k + 1) s1 = .next t1 →
    ∃ t2, runSteps (k + 1) s2 = .next t2 ∧ t2.observe = t1.observe ∧ t2.step = t1.step ∧ t2.off = t1.off ∧ t2.x = t1.x

/-- 20_memory.md section 6 (the spec's own inference): bits at or after the final `OFF` are never inspected: another buffer with the same bits before it, of any length
that still holds them, gives a successful parse the same end. -/
def Obligations.BitsAfterTheCursorDoNotMatter : Prop :=
  ∀ (s t : State) (k : Nat) (m : Memory) (len : Word), s.host = [] → runSteps k s = .next t → t.phase ≠ .error →
    t.off ≤ 8 * len.toNat → (∀ j, s.off ≤ j → j < t.off → bitAt m j = bitAt s.mem j) →
    runSteps k { s with mem := m, len := len } = .next { t with mem := m, len := len }

/-- 42_sps_parser.md section 11 (its table of steps is the spec's own inference): a buffer too short for the fixed part
fails with `BufferUnderrun` at one of S1 to S10, before any Exp-Golomb read; at the default `NAL_SKIP_BITS` at the step the
table names, and a buffer of 13 bytes at S11. -/
def Obligations.TruncatedFixedPartFails : Prop :=
  ∀ (s : State) (len : Word), s.phase ≠ .busy → s.host = [.clock false true len] →
    (∀ a < len.toNat, (s.mem.read a).isSome = true) →
    (8 * len.toNat < s.cfg.nalSkipBits.val + 72 →
      ∃ k t, k ≤ 11 ∧ runSteps k s = .next t ∧ t.phase = .error ∧ t.err = some .bufferUnderrun ∧ 1 ≤ t.step.index ∧
        t.step.index ≤ 10 ∧
        (s.cfg = Config.default → t.step =
          if len.toNat ≤ 3 then .s1 else if len.toNat = 4 then .s2 else if len.toNat = 5 then .s5
          else if len.toNat ≤ 9 then .s8 else if len.toNat ≤ 11 then .s9 else .s10)) ∧
    (s.cfg = Config.default → len.toNat = 13 →
      ∃ t, runSteps 12 s = .next t ∧ t.phase = .error ∧ t.err = some .bufferUnderrun ∧ t.step = .s11 ∧ t.off = 104)

/-- 70_reset_and_hazards.md section 5 (the spec's own inference): what a parse has consumed at the start of each step, and between which bounds it ends: `N + 79` and
`N + 683` bits when it succeeds, no more than `N + 683` when it fails. -/
def Obligations.EveryStepKeepsConsumptionBounds : Prop :=
  ∀ s t : State, ConsumptionInv s → step s = .next t → ConsumptionInv t

/-- R36 (the codes are the spec's own choice D9, what the host sees its choice D12): the host sees the codes of `PHASE` and `ERR`, and the record in `DONE` only. -/
def Obligations.HostSeesRecordOnlyInDone : Prop :=
  ∀ s : State,
    (s.phase = .done → s.observe = ⟨2, s.observe.err, s.out⟩) ∧
    (s.phase = .idle → s.observe = ⟨0, s.observe.err, none⟩) ∧
    (s.phase = .busy → s.observe = ⟨1, s.observe.err, none⟩) ∧
    (s.phase = .error → s.observe = ⟨3, s.observe.err, none⟩) ∧
    (s.err = none → s.observe.err = 0) ∧ (s.err = some .bufferUnderrun → s.observe.err = 1) ∧
    (s.err = some .codeTooLong → s.observe.err = 2)

/-- R175 (with 90_conflicts.md C1): the source's end-to-end scenario, on the 20 bytes of 95_test_vectors.md P1. -/
def Obligations.EndToEndScenario : Prop :=
  parse Config.default
    (Memory.ofBytes 0 [0, 0, 0, 0, 0, 0x42, 0, 0, 0, 0, 0, 0, 0x5D, 0xA0, 0x03, 0xC0, 0x80, 0x10, 0xE5, 0x80]) 20 =
  .ok ⟨1920, 1080, 1, 0, 2, 93, 1, 8, 8⟩
end

