-- ==== Sys2Proof/Laws/State.lean ====
section
/-!
SUPPORT. One lemma per field per named update of the state: what the update leaves in the field. No later proof needs
to unfold an update.
-/

namespace Sys2Proof.Machine

variable (s : State)

/-! ## `State.setOff` -/

@[simp] theorem State.setOff_cfg (v : Nat) : (s.setOff v).cfg = s.cfg := rfl
@[simp] theorem State.setOff_phase (v : Nat) : (s.setOff v).phase = s.phase := rfl
@[simp] theorem State.setOff_err (v : Nat) : (s.setOff v).err = s.err := rfl
@[simp] theorem State.setOff_step (v : Nat) : (s.setOff v).step = s.step := rfl
@[simp] theorem State.setOff_off (v : Nat) : (s.setOff v).off = v := rfl
@[simp] theorem State.setOff_len (v : Nat) : (s.setOff v).len = s.len := rfl
@[simp] theorem State.setOff_lz (v : Nat) : (s.setOff v).lz = s.lz := rfl
@[simp] theorem State.setOff_x (v : Nat) : (s.setOff v).x = s.x := rfl
@[simp] theorem State.setOff_out (v : Nat) : (s.setOff v).out = s.out := rfl
@[simp] theorem State.setOff_ret (v : Nat) : (s.setOff v).ret = s.ret := rfl
@[simp] theorem State.setOff_mem (v : Nat) : (s.setOff v).mem = s.mem := rfl
@[simp] theorem State.setOff_host (v : Nat) : (s.setOff v).host = s.host := rfl
@[simp] theorem State.setOff_draws (v : Nat) : (s.setOff v).draws = s.draws := rfl

/-! ## `State.setLz` -/

@[simp] theorem State.setLz_cfg (v : BitVec 5) : (s.setLz v).cfg = s.cfg := rfl
@[simp] theorem State.setLz_phase (v : BitVec 5) : (s.setLz v).phase = s.phase := rfl
@[simp] theorem State.setLz_err (v : BitVec 5) : (s.setLz v).err = s.err := rfl
@[simp] theorem State.setLz_step (v : BitVec 5) : (s.setLz v).step = s.step := rfl
@[simp] theorem State.setLz_off (v : BitVec 5) : (s.setLz v).off = s.off := rfl
@[simp] theorem State.setLz_len (v : BitVec 5) : (s.setLz v).len = s.len := rfl
@[simp] theorem State.setLz_lz (v : BitVec 5) : (s.setLz v).lz = v := rfl
@[simp] theorem State.setLz_x (v : BitVec 5) : (s.setLz v).x = s.x := rfl
@[simp] theorem State.setLz_out (v : BitVec 5) : (s.setLz v).out = s.out := rfl
@[simp] theorem State.setLz_ret (v : BitVec 5) : (s.setLz v).ret = s.ret := rfl
@[simp] theorem State.setLz_mem (v : BitVec 5) : (s.setLz v).mem = s.mem := rfl
@[simp] theorem State.setLz_host (v : BitVec 5) : (s.setLz v).host = s.host := rfl
@[simp] theorem State.setLz_draws (v : BitVec 5) : (s.setLz v).draws = s.draws := rfl

/-! ## `State.goto` -/

@[simp] theorem State.goto_cfg (st : StepName) : (s.goto st).cfg = s.cfg := rfl
@[simp] theorem State.goto_phase (st : StepName) : (s.goto st).phase = s.phase := rfl
@[simp] theorem State.goto_err (st : StepName) : (s.goto st).err = s.err := rfl
@[simp] theorem State.goto_step (st : StepName) : (s.goto st).step = st := rfl
@[simp] theorem State.goto_off (st : StepName) : (s.goto st).off = s.off := rfl
@[simp] theorem State.goto_len (st : StepName) : (s.goto st).len = s.len := rfl
@[simp] theorem State.goto_lz (st : StepName) : (s.goto st).lz = s.lz := rfl
@[simp] theorem State.goto_x (st : StepName) : (s.goto st).x = s.x := rfl
@[simp] theorem State.goto_out (st : StepName) : (s.goto st).out = s.out := rfl
@[simp] theorem State.goto_ret (st : StepName) : (s.goto st).ret = s.ret := rfl
@[simp] theorem State.goto_mem (st : StepName) : (s.goto st).mem = s.mem := rfl
@[simp] theorem State.goto_host (st : StepName) : (s.goto st).host = s.host := rfl
@[simp] theorem State.goto_draws (st : StepName) : (s.goto st).draws = s.draws := rfl

/-! ## `State.setRet` -/

@[simp] theorem State.setRet_cfg (v : Word) : (s.setRet v).cfg = s.cfg := rfl
@[simp] theorem State.setRet_phase (v : Word) : (s.setRet v).phase = s.phase := rfl
@[simp] theorem State.setRet_err (v : Word) : (s.setRet v).err = s.err := rfl
@[simp] theorem State.setRet_step (v : Word) : (s.setRet v).step = s.step := rfl
@[simp] theorem State.setRet_off (v : Word) : (s.setRet v).off = s.off := rfl
@[simp] theorem State.setRet_len (v : Word) : (s.setRet v).len = s.len := rfl
@[simp] theorem State.setRet_lz (v : Word) : (s.setRet v).lz = s.lz := rfl
@[simp] theorem State.setRet_x (v : Word) : (s.setRet v).x = s.x := rfl
@[simp] theorem State.setRet_out (v : Word) : (s.setRet v).out = s.out := rfl
@[simp] theorem State.setRet_ret (v : Word) : (s.setRet v).ret = some v := rfl
@[simp] theorem State.setRet_mem (v : Word) : (s.setRet v).mem = s.mem := rfl
@[simp] theorem State.setRet_host (v : Word) : (s.setRet v).host = s.host := rfl
@[simp] theorem State.setRet_draws (v : Word) : (s.setRet v).draws = s.draws := rfl

/-! ## `State.writeField` -/

@[simp] theorem State.writeField_cfg (r : FieldReg) (v : Word) : (s.writeField r v).cfg = s.cfg := rfl
@[simp] theorem State.writeField_phase (r : FieldReg) (v : Word) : (s.writeField r v).phase = s.phase := rfl
@[simp] theorem State.writeField_err (r : FieldReg) (v : Word) : (s.writeField r v).err = s.err := rfl
@[simp] theorem State.writeField_step (r : FieldReg) (v : Word) : (s.writeField r v).step = s.step := rfl
@[simp] theorem State.writeField_off (r : FieldReg) (v : Word) : (s.writeField r v).off = s.off := rfl
@[simp] theorem State.writeField_len (r : FieldReg) (v : Word) : (s.writeField r v).len = s.len := rfl
@[simp] theorem State.writeField_lz (r : FieldReg) (v : Word) : (s.writeField r v).lz = s.lz := rfl
@[simp] theorem State.writeField_x (r : FieldReg) (v : Word) : (s.writeField r v).x = s.x.write r v := rfl
@[simp] theorem State.writeField_out (r : FieldReg) (v : Word) : (s.writeField r v).out = s.out := rfl
@[simp] theorem State.writeField_ret (r : FieldReg) (v : Word) : (s.writeField r v).ret = s.ret := rfl
@[simp] theorem State.writeField_mem (r : FieldReg) (v : Word) : (s.writeField r v).mem = s.mem := rfl
@[simp] theorem State.writeField_host (r : FieldReg) (v : Word) : (s.writeField r v).host = s.host := rfl
@[simp] theorem State.writeField_draws (r : FieldReg) (v : Word) : (s.writeField r v).draws = s.draws := rfl

/-! ## `State.complete` -/

@[simp] theorem State.complete_cfg (r : SpsInfo) : (s.complete r).cfg = s.cfg := rfl
@[simp] theorem State.complete_phase (r : SpsInfo) : (s.complete r).phase = .done := rfl
@[simp] theorem State.complete_err (r : SpsInfo) : (s.complete r).err = s.err := rfl
@[simp] theorem State.complete_step (r : SpsInfo) : (s.complete r).step = s.step := rfl
@[simp] theorem State.complete_off (r : SpsInfo) : (s.complete r).off = s.off := rfl
@[simp] theorem State.complete_len (r : SpsInfo) : (s.complete r).len = s.len := rfl
@[simp] theorem State.complete_lz (r : SpsInfo) : (s.complete r).lz = s.lz := rfl
@[simp] theorem State.complete_x (r : SpsInfo) : (s.complete r).x = s.x := rfl
@[simp] theorem State.complete_out (r : SpsInfo) : (s.complete r).out = some r := rfl
@[simp] theorem State.complete_ret (r : SpsInfo) : (s.complete r).ret = s.ret := rfl
@[simp] theorem State.complete_mem (r : SpsInfo) : (s.complete r).mem = s.mem := rfl
@[simp] theorem State.complete_host (r : SpsInfo) : (s.complete r).host = s.host := rfl
@[simp] theorem State.complete_draws (r : SpsInfo) : (s.complete r).draws = s.draws := rfl

/-! ## `State.abort` -/

@[simp] theorem State.abort_cfg (k : ErrKind) : (s.abort k).cfg = s.cfg := rfl
@[simp] theorem State.abort_phase (k : ErrKind) : (s.abort k).phase = .error := rfl
@[simp] theorem State.abort_err (k : ErrKind) : (s.abort k).err = some k := rfl
@[simp] theorem State.abort_step (k : ErrKind) : (s.abort k).step = s.step := rfl
@[simp] theorem State.abort_off (k : ErrKind) : (s.abort k).off = s.off := rfl
@[simp] theorem State.abort_len (k : ErrKind) : (s.abort k).len = s.len := rfl
@[simp] theorem State.abort_lz (k : ErrKind) : (s.abort k).lz = s.lz := rfl
@[simp] theorem State.abort_x (k : ErrKind) : (s.abort k).x = s.x := rfl
@[simp] theorem State.abort_out (k : ErrKind) : (s.abort k).out = s.out := rfl
@[simp] theorem State.abort_ret (k : ErrKind) : (s.abort k).ret = s.ret := rfl
@[simp] theorem State.abort_mem (k : ErrKind) : (s.abort k).mem = s.mem := rfl
@[simp] theorem State.abort_host (k : ErrKind) : (s.abort k).host = s.host := rfl
@[simp] theorem State.abort_draws (k : ErrKind) : (s.abort k).draws = s.draws := rfl

/-! ## `State.accept` -/

@[simp] theorem State.accept_cfg (l : Word) : (s.accept l).cfg = s.cfg := rfl
@[simp] theorem State.accept_phase (l : Word) : (s.accept l).phase = .busy := rfl
@[simp] theorem State.accept_err (l : Word) : (s.accept l).err = none := rfl
@[simp] theorem State.accept_step (l : Word) : (s.accept l).step = .s1 := rfl
@[simp] theorem State.accept_off (l : Word) : (s.accept l).off = 0 := rfl
@[simp] theorem State.accept_len (l : Word) : (s.accept l).len = l := rfl
@[simp] theorem State.accept_lz (l : Word) : (s.accept l).lz = Config.freeLz s.draws := rfl
@[simp] theorem State.accept_x (l : Word) : (s.accept l).x = Fields.empty := rfl
@[simp] theorem State.accept_out (l : Word) : (s.accept l).out = none := rfl
@[simp] theorem State.accept_ret (l : Word) : (s.accept l).ret = s.ret := rfl
@[simp] theorem State.accept_mem (l : Word) : (s.accept l).mem = s.mem := rfl
@[simp] theorem State.accept_host (l : Word) : (s.accept l).host = s.host := rfl
@[simp] theorem State.accept_draws (l : Word) : (s.accept l).draws = s.draws + 1 := rfl

/-! ## `State.doReset` -/

@[simp] theorem State.doReset_cfg : (s.doReset).cfg = s.cfg := rfl
@[simp] theorem State.doReset_phase : (s.doReset).phase = .idle := rfl
@[simp] theorem State.doReset_err : (s.doReset).err = none := rfl
@[simp] theorem State.doReset_step : (s.doReset).step = .s0 := rfl
@[simp] theorem State.doReset_off : (s.doReset).off = 0 := rfl
@[simp] theorem State.doReset_len : (s.doReset).len = 0 := rfl
@[simp] theorem State.doReset_lz : (s.doReset).lz = Config.freeLz s.draws := rfl
@[simp] theorem State.doReset_x : (s.doReset).x = Fields.empty := rfl
@[simp] theorem State.doReset_out : (s.doReset).out = none := rfl
@[simp] theorem State.doReset_ret : (s.doReset).ret = none := rfl
@[simp] theorem State.doReset_mem : (s.doReset).mem = s.mem := rfl
@[simp] theorem State.doReset_host : (s.doReset).host = s.host := rfl
@[simp] theorem State.doReset_draws : (s.doReset).draws = s.draws + 1 := rfl

/-! ## `State.consume` -/

@[simp] theorem State.consume_cfg : (s.consume).cfg = s.cfg := rfl
@[simp] theorem State.consume_phase : (s.consume).phase = s.phase := rfl
@[simp] theorem State.consume_err : (s.consume).err = s.err := rfl
@[simp] theorem State.consume_step : (s.consume).step = s.step := rfl
@[simp] theorem State.consume_off : (s.consume).off = s.off := rfl
@[simp] theorem State.consume_len : (s.consume).len = s.len := rfl
@[simp] theorem State.consume_lz : (s.consume).lz = s.lz := rfl
@[simp] theorem State.consume_x : (s.consume).x = s.x := rfl
@[simp] theorem State.consume_out : (s.consume).out = s.out := rfl
@[simp] theorem State.consume_ret : (s.consume).ret = s.ret := rfl
@[simp] theorem State.consume_mem : (s.consume).mem = s.mem := rfl
@[simp] theorem State.consume_host : (s.consume).host = s.host.tail := rfl
@[simp] theorem State.consume_draws : (s.consume).draws = s.draws := rfl

/-! ## `State.writeDest` -/

@[simp] theorem State.writeDest_cfg (d : Option FieldReg) (v : Word) : (s.writeDest d v).cfg = s.cfg := by
  cases d <;> rfl
@[simp] theorem State.writeDest_phase (d : Option FieldReg) (v : Word) : (s.writeDest d v).phase = s.phase := by
  cases d <;> rfl
@[simp] theorem State.writeDest_err (d : Option FieldReg) (v : Word) : (s.writeDest d v).err = s.err := by
  cases d <;> rfl
@[simp] theorem State.writeDest_step (d : Option FieldReg) (v : Word) : (s.writeDest d v).step = s.step := by
  cases d <;> rfl
@[simp] theorem State.writeDest_off (d : Option FieldReg) (v : Word) : (s.writeDest d v).off = s.off := by
  cases d <;> rfl
@[simp] theorem State.writeDest_len (d : Option FieldReg) (v : Word) : (s.writeDest d v).len = s.len := by
  cases d <;> rfl
@[simp] theorem State.writeDest_lz (d : Option FieldReg) (v : Word) : (s.writeDest d v).lz = s.lz := by
  cases d <;> rfl
@[simp] theorem State.writeDest_none (v : Word) : s.writeDest none v = s := rfl
@[simp] theorem State.writeDest_some (r : FieldReg) (v : Word) : s.writeDest (some r) v = s.writeField r v := rfl
@[simp] theorem State.writeDest_out (d : Option FieldReg) (v : Word) : (s.writeDest d v).out = s.out := by
  cases d <;> rfl
@[simp] theorem State.writeDest_ret (d : Option FieldReg) (v : Word) : (s.writeDest d v).ret = s.ret := by
  cases d <;> rfl
@[simp] theorem State.writeDest_mem (d : Option FieldReg) (v : Word) : (s.writeDest d v).mem = s.mem := by
  cases d <;> rfl
@[simp] theorem State.writeDest_host (d : Option FieldReg) (v : Word) : (s.writeDest d v).host = s.host := by
  cases d <;> rfl
@[simp] theorem State.writeDest_draws (d : Option FieldReg) (v : Word) : (s.writeDest d v).draws = s.draws := by
  cases d <;> rfl

/-! ## The predicates see only the fields they are about -/

@[simp] theorem State.underruns_iff (n : Nat) : s.underruns n = true ↔ 8 * s.len.toNat < s.off + n := by
  simp [State.underruns]

@[simp] theorem readWidthOk_iff (n : Nat) : readWidthOk n = true ↔ 1 ≤ n ∧ n ≤ 32 := by
  unfold readWidthOk readMax
  rw [Bool.and_eq_true, decide_eq_true_eq, decide_eq_true_eq]

@[simp] theorem lenOk_iff (len : Word) : lenOk len = true ↔ 8 * len.toNat < 2 ^ 32 := by
  unfold lenOk
  rw [decide_eq_true_eq]

@[simp] theorem need_some {α : Type} (r : FieldReg) (v : α) : need r (some v) = .ok v := rfl

@[simp] theorem need_none {α : Type} (r : FieldReg) : need r (none : Option α) = .error (.noValue r) := rfl

/-! ## Results of operations -/

variable {α β : Type}

@[simp] theorem OpResult.andThen_value (v : α) (f : α → State → OpResult β) :
    (OpResult.value v s).andThen f = f v s := rfl

@[simp] theorem OpResult.andThen_raised (k : ErrKind) (f : α → State → OpResult β) :
    (OpResult.raised k s).andThen f = .raised k s := rfl

@[simp] theorem OpResult.andThen_fault (e : Fault) (f : α → State → OpResult β) :
    (OpResult.fault e : OpResult α).andThen f = .fault e := rfl

@[simp] theorem OpResult.andThen_refused (e : Refusal) (f : α → State → OpResult β) :
    (OpResult.refused e : OpResult α).andThen f = .refused e := rfl

@[simp] theorem OpResult.finish_value (v : α) (f : α → State → State) :
    (OpResult.value v s).finish f = .next (f v s) := rfl

@[simp] theorem OpResult.finish_raised (k : ErrKind) (f : α → State → State) :
    (OpResult.raised k s).finish f = .next (s.abort k) := rfl

@[simp] theorem OpResult.finish_fault (e : Fault) (f : α → State → State) :
    (OpResult.fault e : OpResult α).finish f = .fault e := rfl

@[simp] theorem OpResult.finish_refused (e : Refusal) (f : α → State → State) :
    (OpResult.refused e : OpResult α).finish f = .refused e := rfl

/-- An operation followed by another delivers only when both do. -/
theorem OpResult.andThen_eq_value {r : OpResult α} {f : α → State → OpResult β} {w : β} {t : State}
    (h : r.andThen f = .value w t) : ∃ v s', r = .value v s' ∧ f v s' = .value w t := by
  cases r <;> simp_all

/-- It raises when the first does, or the second after it. -/
theorem OpResult.andThen_eq_raised {r : OpResult α} {f : α → State → OpResult β} {k : ErrKind} {t : State}
    (h : r.andThen f = .raised k t) : r = .raised k t ∨ ∃ v s', r = .value v s' ∧ f v s' = .raised k t := by
  cases r <;> simp_all

/-- It stops with a fault when the first does, or the second after it. -/
theorem OpResult.andThen_eq_fault {r : OpResult α} {f : α → State → OpResult β} {e : Fault}
    (h : r.andThen f = .fault e) : r = .fault e ∨ ∃ v s', r = .value v s' ∧ f v s' = .fault e := by
  cases r <;> simp_all

/-- An instruction's next state is the finished value's or the abort's. -/
theorem OpResult.finish_eq_next {r : OpResult α} {f : α → State → State} {t : State} (h : r.finish f = .next t) :
    (∃ v s', r = .value v s' ∧ t = f v s') ∨ ∃ k s', r = .raised k s' ∧ t = s'.abort k := by
  cases r <;> simp_all

/-- An instruction stops with a fault only where its operation does. -/
theorem OpResult.finish_eq_fault {r : OpResult α} {f : α → State → State} {e : Fault} (h : r.finish f = .fault e) :
    r = .fault e := by
  cases r <;> simp_all

/-- An instruction is refused only where its operation is. -/
theorem OpResult.finish_eq_refused {r : OpResult α} {f : α → State → State} {e : Refusal}
    (h : r.finish f = .refused e) : r = .refused e := by
  cases r <;> simp_all

end Sys2Proof.Machine
end

