-- ==== Sys2Proof/Laws/Memory.lean ====
section
/-!
SUPPORT. The buffer: what a placed buffer reads as, its canonical form, and what one bit and a run of bits read as.
-/

namespace Sys2Proof.Machine

/-! ## A placed buffer -/

theorem Memory.read_ofBytes (bs : List Byte) (base a : Nat) :
    (Memory.ofBytes base bs).read a = if base ≤ a then bs[a - base]? else none := by
  induction bs generalizing base with
  | nil => simp [Memory.ofBytes, Memory.read, Memory.unlisted]
  | cons b bs ih =>
    simp only [Memory.ofBytes, Memory.read, ih]
    rcases Nat.lt_trichotomy base a with h | rfl | h
    · obtain ⟨d, rfl⟩ : ∃ d, a = base + 1 + d := ⟨a - (base + 1), by omega⟩
      have : base + 1 + d - base = d + 1 := by omega
      simp [this, show base ≠ base + 1 + d by omega, show base ≤ base + 1 + d by omega]
    · simp
    · simp [show base ≠ a by omega, show ¬ base ≤ a by omega, show ¬ base + 1 ≤ a by omega]

theorem Memory.wf_ofBytes (bs : List Byte) (base : Nat) : (Memory.ofBytes base bs).wf = true := by
  induction bs generalizing base with
  | nil => rfl
  | cons b bs ih =>
    cases bs with
    | nil => rfl
    | cons c cs =>
      have := ih (base + 1)
      simp only [Memory.ofBytes] at this ⊢
      simp [Memory.wf, this]

/-- The one operation that makes a buffer leaves it in canonical form. -/
theorem State.place_wf {s t : State} {bytes : List Byte} (h : s.place bytes = .next t) : t.mem.wf = true := by
  unfold State.place at h
  split at h
  · cases h
  · cases h
    exact Memory.wf_ofBytes bytes 0

/-! ## One bit -/

theorem getLsbD_eq_decide (b : Byte) (i : Nat) : b.getLsbD i = decide (b.toNat / 2 ^ i % 2 = 1) := by
  simp [BitVec.getLsbD, Nat.testBit_eq_decide_div_mod_eq]

/-- Everything a bit read can answer. -/
theorem State.bit_eq (s : State) (k : Nat) :
    s.bit k =
      if k / 8 < s.len.toNat then
        match bitAt s.mem k with
        | some b => .ok (decide (b = 1))
        | none => .error (.byteAbsent (k / 8))
      else .error (.beyondLen (k / 8)) := by
  unfold State.bit State.memRead bitAt bitIndex
  by_cases hk : k / 8 < s.len.toNat
  · cases h : s.mem.read (k / 8) <;> simp [hk, getLsbD_eq_decide]
  · simp [hk]

theorem bitAt_lt_two {m : Memory} {k b : Nat} (h : bitAt m k = some b) : b < 2 := by
  unfold bitAt at h
  cases hm : m.read (k / 8) <;> simp [hm] at h
  omega

theorem streamBit_lt_two (m : Memory) (k : Nat) : streamBit m k < 2 := by
  unfold streamBit
  cases h : bitAt m k with
  | none => simp
  | some b => simpa using bitAt_lt_two h

theorem bitAt_eq_none {m : Memory} {k : Nat} : bitAt m k = none ↔ m.read (k / 8) = none := by
  simp [bitAt]

/-- A buffer that is there has its bits. -/
theorem State.Present.bitAt {s : State} (h : s.Present) {k : Nat} (hk : k < 8 * s.len.toNat) :
    bitAt s.mem k = some (streamBit s.mem k) := by
  have := h (k / 8) (by omega)
  cases hb : Machine.bitAt s.mem k with
  | none => rw [bitAt_eq_none] at hb; simp [hb] at this
  | some b => simp [streamBit, hb]

/-! ## A run of bits -/

theorem streamValue_zero (m : Memory) (p : Nat) : streamValue m p 0 = 0 := by simp [streamValue]

theorem streamValue_succ (m : Memory) (p n : Nat) :
    streamValue m p (n + 1) = streamBit m p * 2 ^ n + streamValue m (p + 1) n := by
  unfold streamValue
  rw [Finset.sum_range_succ']
  rw [Nat.add_comm]
  congr 1
  · apply Finset.sum_congr rfl
    intro i _
    rw [show p + (i + 1) = p + 1 + i by omega, show n + 1 - 1 - (i + 1) = n - 1 - i by omega]

theorem streamValue_lt (m : Memory) (p n : Nat) : streamValue m p n < 2 ^ n := by
  induction n generalizing p with
  | zero => simp [streamValue]
  | succ n ih =>
    rw [streamValue_succ, Nat.pow_succ]
    have := ih (p + 1)
    have hb := streamBit_lt_two m p
    have : streamBit m p * 2 ^ n ≤ 1 * 2 ^ n := Nat.mul_le_mul_right _ (by omega)
    omega

theorem shiftIn_toNat (v : Word) (b : Bool) (h : v.toNat < 2 ^ 31) :
    (shiftIn v b).toNat = 2 * v.toNat + b.toNat := by
  unfold shiftIn
  rw [BitVec.toNat_or, BitVec.toNat_shiftLeft, BitVec.toNat_setWidth, BitVec.toNat_ofBool]
  rw [Nat.shiftLeft_eq, Nat.mod_eq_of_lt (by omega)]
  rw [Nat.mod_eq_of_lt (by cases b <;> simp)]
  have := Nat.two_pow_add_eq_or_of_lt (i := 1) (b := b.toNat) (by cases b <;> simp) v.toNat
  rw [Nat.mul_comm v.toNat, ← this]

/-- A run of bits that are all there is read most significant first. -/
theorem State.bits_eq (s : State) (n k : Nat) (v : Word) (hv : v.toNat * 2 ^ n + 2 ^ n ≤ 2 ^ 32)
    (hb : ∀ i < n, (bitAt s.mem (k + i)).isSome = true) (hl : k + n ≤ 8 * s.len.toNat) :
    s.bits n k v = .ok (BitVec.ofNat 32 (v.toNat * 2 ^ n + streamValue s.mem k n)) := by
  induction n generalizing k v with
  | zero => simp [State.bits, streamValue_zero]
  | succ n ih =>
    have hk := hb 0 (by omega)
    obtain ⟨b, hb0⟩ := Option.isSome_iff_exists.mp hk
    rw [Nat.add_zero] at hb0
    have h2 := bitAt_lt_two hb0
    have hpow : 0 < 2 ^ n := Nat.pow_pos (by omega)
    have hv31 : v.toNat < 2 ^ 31 := by
      by_contra hc
      have h31 : 2 ^ 31 * 2 ^ (n + 1) ≤ v.toNat * 2 ^ (n + 1) := Nat.mul_le_mul_right _ (by omega)
      have : 2 ^ 1 ≤ 2 ^ (n + 1) := Nat.pow_le_pow_right (by omega) (by omega)
      omega
    simp only [State.bits, State.bit_eq, if_pos (show k / 8 < s.len.toNat by omega), hb0]
    have hs := shiftIn_toNat v (decide (b = 1)) hv31
    have hd : (decide (b = 1)).toNat = b := by
      have : b = 0 ∨ b = 1 := by omega
      rcases this with rfl | rfl <;> rfl
    rw [hd] at hs
    have e : v.toNat * 2 ^ (n + 1) = (2 * v.toNat) * 2 ^ n := by rw [Nat.pow_succ]; ring
    have e2 : 2 ^ (n + 1) = 2 * 2 ^ n := by rw [Nat.pow_succ]; ring
    have hbn : b * 2 ^ n ≤ 2 ^ n := by
      calc b * 2 ^ n ≤ 1 * 2 ^ n := Nat.mul_le_mul_right _ (by omega)
        _ = 2 ^ n := by simp
    rw [ih (k + 1) _ (by rw [hs, Nat.add_mul]; omega)
      (fun i hi => by have := hb (i + 1) (by omega); rwa [show k + (i + 1) = k + 1 + i by omega] at this)
      (by omega)]
    rw [hs, streamValue_succ, Nat.add_mul]
    have : streamBit s.mem k = b := by simp [streamBit, hb0]
    rw [this, e]
    congr 2
    omega

/-- A run of bits fails at the first byte that is not there. -/
theorem State.bits_error (s : State) (n k : Nat) (v : Word) (f : Fault) (hl : k + n ≤ 8 * s.len.toNat)
    (h : s.bits n k v = .error f) :
    ∃ i < n, f = .byteAbsent ((k + i) / 8) ∧ s.mem.read ((k + i) / 8) = none ∧ (k + i) / 8 < s.len.toNat ∧
      ∀ j < i, (bitAt s.mem (k + j)).isSome = true := by
  induction n generalizing k v with
  | zero => simp [State.bits] at h
  | succ n ih =>
    simp only [State.bits, State.bit_eq, if_pos (show k / 8 < s.len.toNat by omega)] at h
    cases hb : bitAt s.mem k with
    | none =>
      simp only [hb] at h
      cases h
      exact ⟨0, by omega, rfl, by rw [Nat.add_zero]; exact bitAt_eq_none.mp hb, by omega, fun j hj => by omega⟩
    | some b =>
      simp only [hb] at h
      obtain ⟨i, hi, hf, hm, hlen, hj⟩ := ih (k + 1) _ (by omega) h
      refine ⟨i + 1, by omega, ?_, ?_, ?_, ?_⟩
      · rw [hf, show k + 1 + i = k + (i + 1) by omega]
      · rw [← hm, show k + 1 + i = k + (i + 1) by omega]
      · omega
      · intro j hjl
        cases j with
        | zero => simp [hb]
        | succ j => have := hj j (by omega); rwa [show k + 1 + j = k + (j + 1) by omega] at this

/-- A run of bits that is delivered has all its bits. -/
theorem State.bits_ok (s : State) (n k : Nat) (v w : Word) (hl : k + n ≤ 8 * s.len.toNat)
    (h : s.bits n k v = .ok w) : ∀ i < n, (bitAt s.mem (k + i)).isSome = true := by
  induction n generalizing k v with
  | zero => intro i hi; omega
  | succ n ih =>
    simp only [State.bits, State.bit_eq, if_pos (show k / 8 < s.len.toNat by omega)] at h
    cases hb : bitAt s.mem k with
    | none => simp [hb] at h
    | some b =>
      simp only [hb] at h
      intro i hi
      cases i with
      | zero => simp [hb]
      | succ i => have := ih (k + 1) _ (by omega) h i (by omega); rwa [show k + 1 + i = k + (i + 1) by omega] at this

end Sys2Proof.Machine
end

