-- ==== Sys2Proof/Laws/Operands.lean ====
section
/-!
SUPPORT. Everything READBITS, SKIP and UE can do, said once each.
-/

namespace Sys2Proof.Machine

/-! ## READBITS -/

/-- The five ends of a READBITS (R100 to R102, R107, U5). -/
theorem readBits_cases (n : Nat) (s : State) :
    (¬(1 ≤ n ∧ n ≤ 32) ∧ readBits n s = .refused (.readWidth n)) ∨
    (1 ≤ n ∧ n ≤ 32 ∧ 8 * s.len.toNat < s.off + n ∧ readBits n s = .raised .bufferUnderrun s) ∨
    (1 ≤ n ∧ n ≤ 32 ∧ s.off + n ≤ 8 * s.len.toNat ∧ (∀ i < n, (bitAt s.mem (s.off + i)).isSome = true) ∧
      readBits n s = .value (BitVec.ofNat 32 (streamValue s.mem s.off n)) (s.setOff (s.off + n))) ∨
    (1 ≤ n ∧ n ≤ 32 ∧ s.off + n ≤ 8 * s.len.toNat ∧ ∃ i < n, s.mem.read ((s.off + i) / 8) = none ∧
      (s.off + i) / 8 < s.len.toNat ∧ (∀ j < i, (bitAt s.mem (s.off + j)).isSome = true) ∧
      readBits n s = .fault (.byteAbsent ((s.off + i) / 8))) := by
  unfold readBits
  by_cases hn : 1 ≤ n ∧ n ≤ 32
  · rw [if_pos ((readWidthOk_iff n).mpr hn)]
    by_cases hu : 8 * s.len.toNat < s.off + n
    · rw [if_pos ((State.underruns_iff s n).mpr hu)]
      exact .inr (.inl ⟨hn.1, hn.2, hu, rfl⟩)
    · rw [if_neg (by rw [State.underruns_iff]; exact hu)]
      cases h : s.bits n s.off 0 with
      | ok v =>
        have hb := State.bits_ok s n s.off 0 v (by omega) h
        have hp : 2 ^ n ≤ 2 ^ 32 := Nat.pow_le_pow_right (by omega) hn.2
        rw [State.bits_eq s n s.off 0 (by simpa using hp) hb (by omega)] at h
        injection h with h
        refine .inr (.inr (.inl ⟨hn.1, hn.2, by omega, hb, ?_⟩))
        rw [← h]
        simp
      | error f =>
        obtain ⟨i, hi, rfl, hm, hl, hj⟩ := State.bits_error s n s.off 0 f (by omega) h
        exact .inr (.inr (.inr ⟨hn.1, hn.2, by omega, i, hi, hm, hl, hj, rfl⟩))
  · rw [if_neg (by rw [readWidthOk_iff]; exact hn)]
    exact .inl ⟨hn, rfl⟩

theorem readBits_underrun {n : Nat} {s : State} (h1 : 1 ≤ n) (h32 : n ≤ 32) (h : 8 * s.len.toNat < s.off + n) :
    readBits n s = .raised .bufferUnderrun s := by
  rcases readBits_cases n s with h' | ⟨_, _, _, h'⟩ | ⟨_, _, h', _⟩ | ⟨_, _, h', _⟩
  · omega
  · exact h'
  · omega
  · omega

/-- A READBITS whose bits are all there delivers them. -/
theorem readBits_delivers {n : Nat} {s : State} (h1 : 1 ≤ n) (h32 : n ≤ 32) (h : s.off + n ≤ 8 * s.len.toNat)
    (hb : ∀ i < n, (bitAt s.mem (s.off + i)).isSome = true) :
    readBits n s = .value (BitVec.ofNat 32 (streamValue s.mem s.off n)) (s.setOff (s.off + n)) := by
  rcases readBits_cases n s with h' | ⟨_, _, h', _⟩ | ⟨_, _, _, _, h'⟩ | ⟨_, _, _, i, hi, hm, _⟩
  · omega
  · omega
  · exact h'
  · have := hb i hi
    rw [bitAt_eq_none.mpr hm] at this
    simp at this

theorem readBits_present {n : Nat} {s : State} (h1 : 1 ≤ n) (h32 : n ≤ 32) (h : s.off + n ≤ 8 * s.len.toNat)
    (hp : s.Present) :
    readBits n s = .value (BitVec.ofNat 32 (streamValue s.mem s.off n)) (s.setOff (s.off + n)) :=
  readBits_delivers h1 h32 h fun i hi => by rw [hp.bitAt (by omega)]; rfl

/-- What a READBITS that delivers has done. -/
theorem readBits_value {n : Nat} {s s' : State} {v : Word} (h : readBits n s = .value v s') :
    1 ≤ n ∧ n ≤ 32 ∧ s.off + n ≤ 8 * s.len.toNat ∧ (∀ i < n, (bitAt s.mem (s.off + i)).isSome = true) ∧
      s' = s.setOff (s.off + n) ∧ v = BitVec.ofNat 32 (streamValue s.mem s.off n) ∧ v.toNat < 2 ^ n := by
  rcases readBits_cases n s with ⟨_, h'⟩ | ⟨_, _, _, h'⟩ | ⟨h1, h2, h3, hb, h'⟩ | ⟨_, _, _, i, _, _, _, _, h'⟩ <;>
    rw [h'] at h <;> cases h
  refine ⟨h1, h2, h3, hb, rfl, rfl, ?_⟩
  rw [BitVec.toNat_ofNat]
  exact Nat.lt_of_le_of_lt (Nat.mod_le _ _) (streamValue_lt _ _ _)

/-- A READBITS raises `BufferUnderrun` only, and changes nothing (R101, R102). -/
theorem readBits_raised {n : Nat} {s s' : State} {k : ErrKind} (h : readBits n s = .raised k s') :
    1 ≤ n ∧ n ≤ 32 ∧ 8 * s.len.toNat < s.off + n ∧ k = .bufferUnderrun ∧ s' = s := by
  rcases readBits_cases n s with ⟨_, h'⟩ | ⟨h1, h2, h3, h'⟩ | ⟨_, _, _, _, h'⟩ | ⟨_, _, _, i, _, _, _, _, h'⟩ <;>
    rw [h'] at h <;> cases h
  exact ⟨h1, h2, h3, rfl, rfl⟩

/-- A READBITS stops only at a byte the host never placed. -/
theorem readBits_fault {n : Nat} {s : State} {f : Fault} (h : readBits n s = .fault f) :
    ∃ a, f = .byteAbsent a ∧ a < s.len.toNat ∧ s.mem.read a = none := by
  rcases readBits_cases n s with ⟨_, h'⟩ | ⟨_, _, _, h'⟩ | ⟨_, _, _, _, h'⟩ | ⟨_, _, _, i, _, hm, hl, _, h'⟩ <;>
    rw [h'] at h <;> cases h
  exact ⟨_, rfl, hl, hm⟩

theorem readBits_refused {n : Nat} {s : State} {r : Refusal} (h : readBits n s = .refused r) :
    ¬(1 ≤ n ∧ n ≤ 32) ∧ r = .readWidth n := by
  rcases readBits_cases n s with ⟨hn, h'⟩ | ⟨_, _, _, h'⟩ | ⟨_, _, _, _, h'⟩ | ⟨_, _, _, i, _, _, _, _, h'⟩ <;>
    rw [h'] at h <;> cases h
  exact ⟨hn, rfl⟩

/-! ## SKIP -/

theorem skip_underrun {n : Nat} {s : State} (h : 8 * s.len.toNat < s.off + n) :
    skip n s = .raised .bufferUnderrun s := by
  unfold skip
  rw [if_pos ((State.underruns_iff s n).mpr h)]

theorem skip_passes {n : Nat} {s : State} (h : s.off + n ≤ 8 * s.len.toNat) :
    skip n s = .value () (s.setOff (s.off + n)) := by
  unfold skip
  rw [if_neg (by rw [State.underruns_iff]; omega)]

/-- The two ends of a SKIP (R104, R105). -/
theorem skip_cases (n : Nat) (s : State) :
    (8 * s.len.toNat < s.off + n ∧ skip n s = .raised .bufferUnderrun s) ∨
    (s.off + n ≤ 8 * s.len.toNat ∧ skip n s = .value () (s.setOff (s.off + n))) := by
  by_cases h : 8 * s.len.toNat < s.off + n
  · exact .inl ⟨h, skip_underrun h⟩
  · exact .inr ⟨by omega, skip_passes (by omega)⟩

/-! ## The counting loop of UE -/

theorem readBit_value {s s' : State} {v : Word} (h : readBits 1 s = .value v s') :
    s.off + 1 ≤ 8 * s.len.toNat ∧ (bitAt s.mem s.off).isSome = true ∧ s' = s.setOff (s.off + 1) ∧
      v = BitVec.ofNat 32 (streamBit s.mem s.off) := by
  obtain ⟨_, _, h3, hb, h5, h6, _⟩ := readBits_value h
  refine ⟨h3, by simpa using hb 0 (by omega), h5, ?_⟩
  rw [h6, streamValue_succ, streamValue_zero]
  simp

theorem ofNat_streamBit_eq_one (m : Memory) (p : Nat) :
    (BitVec.ofNat 32 (streamBit m p) = (1 : Word)) ↔ streamBit m p = 1 := by
  have := streamBit_lt_two m p
  have h : streamBit m p = 0 ∨ streamBit m p = 1 := by omega
  rcases h with h | h <;> simp [h]

/-- Everything the counting loop can do. -/
theorem countZeros_cases (left : Nat) (s : State) :
    (∃ k < left, s.off + k + 1 ≤ 8 * s.len.toNat ∧ (∀ i < k + 1, (bitAt s.mem (s.off + i)).isSome = true) ∧
      ZerosAt s.mem s.off k ∧ streamBit s.mem (s.off + k) = 1 ∧
      countZeros left s = .value () ((s.setOff (s.off + k + 1)).setLz (s.lz + BitVec.ofNat 5 k))) ∨
    (s.off + left ≤ 8 * s.len.toNat ∨ left = 0) ∧ (∀ i < left, (bitAt s.mem (s.off + i)).isSome = true) ∧
      ZerosAt s.mem s.off left ∧
      countZeros left s = .raised .codeTooLong ((s.setOff (s.off + left)).setLz (s.lz + BitVec.ofNat 5 left)) ∨
    (∃ z < left, 8 * s.len.toNat < s.off + z + 1 ∧ (z = 0 ∨ s.off + z ≤ 8 * s.len.toNat) ∧
      (∀ i < z, (bitAt s.mem (s.off + i)).isSome = true) ∧ ZerosAt s.mem s.off z ∧
      countZeros left s = .raised .bufferUnderrun ((s.setOff (s.off + z)).setLz (s.lz + BitVec.ofNat 5 z))) ∨
    (∃ i < left, s.mem.read ((s.off + i) / 8) = none ∧ (s.off + i) / 8 < s.len.toNat ∧
      s.off + i + 1 ≤ 8 * s.len.toNat ∧ (∀ j < i, (bitAt s.mem (s.off + j)).isSome = true) ∧ ZerosAt s.mem s.off i ∧
      countZeros left s = .fault (.byteAbsent ((s.off + i) / 8))) := by
  induction left generalizing s with
  | zero =>
    refine .inr (.inl ⟨.inr rfl, fun i hi => by omega, fun i hi => by omega, ?_⟩)
    simp [countZeros, State.setOff, State.setLz]
  | succ left ih =>
    have shift : ∀ i, s.off + 1 + i = s.off + (i + 1) := fun i => by omega
    rcases readBits_cases 1 s with ⟨h', _⟩ | ⟨_, _, hu, h'⟩ | ⟨_, _, hl, hb, h'⟩ | ⟨_, _, hl, i, hi, hm, hlen, _, h'⟩
    · omega
    · refine .inr (.inr (.inl ⟨0, by omega, by omega, .inl rfl, fun i hi => by omega, fun i hi => by omega, ?_⟩))
      simp [countZeros, h', State.setOff, State.setLz]
    · have hb0 := hb 0 (by omega)
      rw [Nat.add_zero] at hb0
      have hv : streamValue s.mem s.off 1 = streamBit s.mem s.off := by
        rw [streamValue_succ, streamValue_zero]; simp
      rw [hv] at h'
      by_cases h1 : streamBit s.mem s.off = 1
      · refine .inl ⟨0, by omega, by omega, ?_, fun i hi => by omega, by simpa using h1, ?_⟩
        · intro i hi
          rw [show i = 0 by omega]; simpa using hb0
        · simp [countZeros, h', h1, State.setOff, State.setLz]
      · have h0 : streamBit s.mem s.off = 0 := by have := streamBit_lt_two s.mem s.off; omega
        have hstep : countZeros (left + 1) s = countZeros left ((s.setOff (s.off + 1)).setLz (s.lz + 1)) := by
          simp [countZeros, h', h0]
        have hbits : ∀ n, (∀ i < n, (bitAt s.mem (s.off + 1 + i)).isSome = true) →
            ∀ i < n + 1, (bitAt s.mem (s.off + i)).isSome = true := by
          intro n h i hi
          cases i with
          | zero => simpa using hb0
          | succ i => rw [← shift]; exact h i (by omega)
        have hzeros : ∀ n, ZerosAt s.mem (s.off + 1) n → ZerosAt s.mem s.off (n + 1) := by
          intro n h i hi
          cases i with
          | zero => simpa using h0
          | succ i => rw [← shift]; exact h i (by omega)
        have hlz : ∀ n, s.lz + 1 + BitVec.ofNat 5 n = s.lz + BitVec.ofNat 5 (n + 1) := by
          intro n
          rw [BitVec.add_assoc]
          congr 1
          apply BitVec.eq_of_toNat_eq
          simp only [BitVec.toNat_add, BitVec.toNat_ofNat]
          have : (1 : BitVec 5).toNat = 1 := rfl
          omega
        have hst : ∀ n, ((((s.setOff (s.off + 1)).setLz (s.lz + 1)).setOff (s.off + 1 + n)).setLz
            (s.lz + 1 + BitVec.ofNat 5 n)) =
            (s.setOff (s.off + (n + 1))).setLz (s.lz + BitVec.ofNat 5 (n + 1)) := by
          intro n
          rw [hlz, shift]
          rfl
        rcases ih ((s.setOff (s.off + 1)).setLz (s.lz + 1)) with
          ⟨k, hk, hl', hb', hz, hm, he⟩ | ⟨hl', hb', hz, he⟩ | ⟨z, hz', hu, hl', hb', hz, he⟩ |
          ⟨i, hi, hm, hlen, hl', hb', hz, he⟩
        · simp only [State.setLz_off, State.setOff_off, State.setLz_mem, State.setOff_mem, State.setLz_len,
            State.setOff_len, State.setLz_lz] at hl' hb' hz hm he
          refine .inl ⟨k + 1, by omega, by omega, hbits _ hb', hzeros _ hz, by rw [← shift]; exact hm, ?_⟩
          rw [hstep, he]
          congr 1
          rw [← hlz]
          simp only [State.setOff, State.setLz]
          congr 1
          omega
        · simp only [State.setLz_off, State.setOff_off, State.setLz_mem, State.setOff_mem, State.setLz_len,
            State.setOff_len, State.setLz_lz] at hl' hb' hz he
          refine .inr (.inl ⟨.inl (by omega), hbits _ hb', hzeros _ hz, ?_⟩)
          rw [hstep, he, hst]
        · simp only [State.setLz_off, State.setOff_off, State.setLz_mem, State.setOff_mem, State.setLz_len,
            State.setOff_len, State.setLz_lz] at hu hl' hb' hz he
          refine .inr (.inr (.inl ⟨z + 1, by omega, by omega, .inr (by omega), hbits _ hb', hzeros _ hz, ?_⟩))
          rw [hstep, he, hst]
        · simp only [State.setLz_off, State.setOff_off, State.setLz_mem, State.setOff_mem, State.setLz_len,
            State.setOff_len] at hm hlen hl' hb' hz he
          rw [shift] at hm hlen he
          exact .inr (.inr (.inr ⟨i + 1, by omega, hm, hlen, by omega, hbits _ hb', hzeros _ hz, by rw [hstep, he]⟩))
    · refine .inr (.inr (.inr ⟨i, by omega, hm, hlen, by omega, fun j hj => by omega, fun j hj => by omega, ?_⟩))
      simp [countZeros, h']

/-! ## UE -/

/-- The value of UE stays within 32 bits (R125). -/
theorem codeNum_eq {k : Nat} (hk : k ≤ 30) (x : Nat) :
    codeNum (BitVec.ofNat 5 k) (BitVec.ofNat 32 x) = BitVec.ofNat 32 (2 ^ k - 1 + x) := by
  have h30 : 2 ^ k ≤ 2 ^ 30 := Nat.pow_le_pow_right (by omega) hk
  have hpos : 0 < 2 ^ k := Nat.pow_pos (by omega)
  unfold codeNum
  apply BitVec.eq_of_toNat_eq
  have hlz : (BitVec.ofNat 5 k).toNat = k := by rw [BitVec.toNat_ofNat]; exact Nat.mod_eq_of_lt (by omega)
  have h1 : (((1 : Word) <<< k) - 1).toNat = 2 ^ k - 1 := by
    have h : (1 : Word).toNat = 1 := rfl
    rw [BitVec.toNat_sub, BitVec.toNat_shiftLeft, h, Nat.shiftLeft_eq]
    omega
  rw [hlz, BitVec.toNat_add, h1, BitVec.toNat_ofNat, BitVec.toNat_ofNat]
  omega

/-- UE's state after it counted `k` zeros and stands at `p`. -/
abbrev State.ueAt (s : State) (p k : Nat) : State := (s.setOff p).setLz (BitVec.ofNat 5 k)

/-- Everything the suffix can do, after `k` zeros. -/
theorem ueSuffix_cases (s : State) (k : Nat) (hk : k ≤ 30) (hlz : s.lz = BitVec.ofNat 5 k) (hl : s.off ≤ 8 * s.len.toNat) :
    (s.off + k ≤ 8 * s.len.toNat ∧ (∀ i < k, (bitAt s.mem (s.off + i)).isSome = true) ∧
      ueSuffix s = .value (BitVec.ofNat 32 (2 ^ k - 1 + streamValue s.mem s.off k)) (s.setOff (s.off + k))) ∨
    (8 * s.len.toNat < s.off + k ∧ ueSuffix s = .raised .bufferUnderrun s) ∨
    (∃ a, s.mem.read a = none ∧ a < s.len.toNat ∧ s.off / 8 ≤ a ∧ ueSuffix s = .fault (.byteAbsent a)) := by
  unfold ueSuffix
  by_cases h0 : k = 0
  · subst h0
    have hz : s.lz = 0 := hlz
    rw [if_pos hz, hlz, show (0 : Word) = BitVec.ofNat 32 0 from rfl, codeNum_eq (k := 0) (by omega) 0]
    exact .inl ⟨by omega, fun i hi => by omega, by simp [streamValue_zero, State.setOff]⟩
  · have hkn : s.lz.toNat = k := by rw [hlz, BitVec.toNat_ofNat]; exact Nat.mod_eq_of_lt (by omega)
    have hne : ¬ s.lz = 0 := by
      intro h
      rw [h] at hkn
      simp at hkn
      omega
    rw [if_neg hne, hkn]
    rcases readBits_cases k s with ⟨h', _⟩ | ⟨_, _, hu, h'⟩ | ⟨_, _, hl', hb', h'⟩ | ⟨_, _, hl', i, hi, hm', hlen, _, h'⟩
    · omega
    · rw [h']
      exact .inr (.inl ⟨hu, rfl⟩)
    · rw [h', OpResult.andThen_value, hlz, codeNum_eq hk]
      exact .inl ⟨hl', hb', rfl⟩
    · rw [h']
      exact .inr (.inr ⟨_, hm', hlen, by omega, rfl⟩)

/-- Everything UE can do: the four cases of R123 to R126, and a stop at a byte the host never placed (U5). -/
theorem ue_cases (s : State) :
    (∃ k, s.CodeAt k ∧ (∀ i < 2 * k + 1, (bitAt s.mem (s.off + i)).isSome = true) ∧
      ue s = .value (BitVec.ofNat 32 (s.codeValue k)) (s.ueAt (s.off + 2 * k + 1) k)) ∨
    (s.TooLongAt ∧ (∀ i < 31, (bitAt s.mem (s.off + i)).isSome = true) ∧
      ue s = .raised .codeTooLong (s.ueAt (s.off + 31) 31)) ∨
    (∃ z, z ≤ 30 ∧ ZerosAt s.mem s.off z ∧ 8 * s.len.toNat < s.off + z + 1 ∧
      (z = 0 ∨ s.off + z ≤ 8 * s.len.toNat) ∧ (∀ i < z, (bitAt s.mem (s.off + i)).isSome = true) ∧
      ue s = .raised .bufferUnderrun (s.ueAt (s.off + z) z)) ∨
    (∃ k, s.SuffixUnderrunAt k ∧ (∀ i < k + 1, (bitAt s.mem (s.off + i)).isSome = true) ∧
      ue s = .raised .bufferUnderrun (s.ueAt (s.off + k + 1) k)) ∨
    (∃ a, s.mem.read a = none ∧ a < s.len.toNat ∧ s.off / 8 ≤ a ∧ ue s = .fault (.byteAbsent a)) := by
  have hst : ∀ p n, ((s.setLz 0).setOff p).setLz ((0 : BitVec 5) + BitVec.ofNat 5 n) = s.ueAt p n := by
    intro p n
    have : (0 : BitVec 5) + BitVec.ofNat 5 n = BitVec.ofNat 5 n := BitVec.zero_add _
    rw [this]
    rfl
  unfold ue
  rcases countZeros_cases (ueMaxLz + 1) (s.setLz 0) with
    ⟨k, hk, hl, hb, hz, hm, he⟩ | ⟨hl, hb, hz, he⟩ | ⟨z, hz', hu, hl, hb, hz, he⟩ | ⟨i, hi, hm, hlen, hl, hb, hz, he⟩ <;>
  simp only [State.setLz_off, State.setLz_lz, hst] at he <;>
  rw [he]
  · have hk30 : k ≤ 30 := by simp only [ueMaxLz] at hk; omega
    rw [OpResult.andThen_value]
    rcases ueSuffix_cases (s.ueAt (s.off + k + 1) k) k hk30 rfl hl with ⟨h1, h2, h3⟩ | ⟨h1, h3⟩ | ⟨a, h1, h2, h3, h4⟩
    · refine .inl ⟨k, ⟨hk30, hz, hm, ?_⟩, ?_, ?_⟩
      · have : s.off + k + 1 + k ≤ 8 * s.len.toNat := h1
        omega
      · intro i hi
        by_cases hik : i < k + 1
        · exact hb i hik
        · have := h2 (i - (k + 1)) (by omega)
          have h' : (bitAt s.mem (s.off + k + 1 + (i - (k + 1)))).isSome = true := this
          rwa [show s.off + k + 1 + (i - (k + 1)) = s.off + i by omega] at h'
      · rw [h3]
        have : s.off + 2 * k + 1 = s.off + k + 1 + k := by omega
        rw [this]
        rfl
    · have : 8 * s.len.toNat < s.off + k + 1 + k := h1
      exact .inr (.inr (.inr (.inl ⟨k, ⟨hk30, hz, hm, hl, by omega⟩, hb, h3⟩)))
    · have h3' : (s.off + k + 1) / 8 ≤ a := h3
      exact .inr (.inr (.inr (.inr ⟨a, h1, h2, by omega, h4⟩)))
  · refine .inr (.inl ⟨⟨hz, ?_⟩, hb, rfl⟩)
    have : s.off + 31 ≤ 8 * s.len.toNat ∨ ueMaxLz + 1 = 0 := hl
    simp only [ueMaxLz] at this
    omega
  · have hz30 : z ≤ 30 := by simp only [ueMaxLz] at hz'; omega
    exact .inr (.inr (.inl ⟨z, hz30, hz, hu, hl, hb, rfl⟩))
  · exact .inr (.inr (.inr (.inr ⟨_, hm, hlen, by show s.off / 8 ≤ (s.off + i) / 8; omega, rfl⟩)))

/-- The value of a code lies in its class (R125). -/
theorem State.codeValue_bounds (s : State) {k : Nat} (hk : k ≤ 30) :
    2 ^ k - 1 ≤ s.codeValue k ∧ s.codeValue k ≤ 2 ^ (k + 1) - 2 ∧ s.codeValue k ≤ 2 ^ 31 - 2 := by
  have := streamValue_lt s.mem (s.off + k + 1) k
  have h30 : 2 ^ k ≤ 2 ^ 30 := Nat.pow_le_pow_right (by omega) hk
  unfold State.codeValue
  rw [Nat.pow_succ]
  omega

/-- What a UE that delivers has done. -/
theorem ue_value {s s' : State} {v : Word} (h : ue s = .value v s') :
    ∃ k, s.CodeAt k ∧ (∀ i < 2 * k + 1, (bitAt s.mem (s.off + i)).isSome = true) ∧
      v = BitVec.ofNat 32 (s.codeValue k) ∧ v.toNat = s.codeValue k ∧ s' = s.ueAt (s.off + 2 * k + 1) k := by
  rcases ue_cases s with ⟨k, hc, hb, h'⟩ | ⟨_, _, h'⟩ | ⟨_, _, _, _, _, _, h'⟩ | ⟨_, _, _, h'⟩ | ⟨_, _, _, _, h'⟩ <;>
    rw [h'] at h <;> cases h
  refine ⟨k, hc, hb, rfl, ?_, rfl⟩
  rw [BitVec.toNat_ofNat]
  exact Nat.mod_eq_of_lt (by have := s.codeValue_bounds hc.1; omega)

/-- What a UE that raises leaves: only `OFF` and `LZ` differ, `OFF` not lower and, where it was, inside the buffer. -/
theorem ue_raised {s s' : State} {e : ErrKind} (h : ue s = .raised e s') :
    ∃ p k, s' = s.ueAt p k ∧ s.off ≤ p ∧ (s.off ≤ 8 * s.len.toNat → p ≤ 8 * s.len.toNat) ∧
      (∀ i, s.off + i < p → (bitAt s.mem (s.off + i)).isSome = true) ∧
      (e = .codeTooLong → p = s.off + 31) := by
  rcases ue_cases s with ⟨k, hc, hb, h'⟩ | ⟨hc, hb, h'⟩ | ⟨z, _, _, _, hl, hb, h'⟩ | ⟨k, hc, hb, h'⟩ | ⟨_, _, _, _, h'⟩ <;>
    rw [h'] at h <;> cases h
  · exact ⟨_, _, rfl, by omega, fun _ => hc.2, fun i hi => hb i (by omega), fun _ => rfl⟩
  · exact ⟨_, _, rfl, by omega, fun _ => by omega, fun i hi => hb i (by omega), fun h => by cases h⟩
  · exact ⟨_, _, rfl, by omega, fun _ => by have := hc.2.2.2.1; omega, fun i hi => hb i (by omega), fun h => by cases h⟩

/-- A UE stops only at a byte the host never placed. -/
theorem ue_fault {s : State} {f : Fault} (h : ue s = .fault f) :
    ∃ a, f = .byteAbsent a ∧ a < s.len.toNat ∧ s.mem.read a = none := by
  rcases ue_cases s with ⟨k, hc, hb, h'⟩ | ⟨_, _, h'⟩ | ⟨_, _, _, _, _, _, h'⟩ | ⟨_, _, _, h'⟩ | ⟨a, hm, hl, _, h'⟩ <;>
    rw [h'] at h <;> cases h
  exact ⟨a, rfl, hl, hm⟩

/-- A UE is never refused: every READBITS it issues is 1 to 30 bits wide (R107). -/
theorem ue_not_refused {s : State} {r : Refusal} : ue s ≠ .refused r := by
  intro h
  rcases ue_cases s with ⟨k, hc, hb, h'⟩ | ⟨_, _, h'⟩ | ⟨_, _, _, _, _, _, h'⟩ | ⟨_, _, _, h'⟩ | ⟨_, _, _, _, h'⟩ <;>
    rw [h'] at h <;> cases h

end Sys2Proof.Machine
end

