-- ==== Sys2Proof/Laws/PerInstr.lean ====
section
/-!
SUPPORT. Statements made per instruction, one lemma per constructor of `Instr`.
-/

namespace Sys2Proof.Laws

open Sys2Proof

/-- The signals that `encodeSelector` gives a row select that row and no other (R25, R35, R84). -/
def Selected.Statement (i : Instr) : Prop :=
  ∀ sel, encodeSelector i = some sel → decodeSelector sel = .ok i

/-- A row's element, with the least value its format carries, is decoded back with every bit after it left over. -/
def LeastElement.Statement (i : Instr) : Prop :=
  ∀ (skipN : Nat) (rest : List Bool), (i.format skipN).valueOk 0 = true →
    decodeElement (i.format skipN) (encodeElement (i.format skipN) 0 ++ rest) = .ok (0, rest)

theorem decodeX_replicate (n : Nat) (rest : List Bool) :
    decodeX n (List.replicate n false ++ rest) = .ok rest := by
  induction n with
  | zero => rfl
  | succ n ih => simpa [List.replicate_succ, decodeX] using ih

theorem decodeU_zero (n : Nat) (rest : List Bool) : decodeU n 0 (encodeU n 0 ++ rest) = .ok (0, rest) := by
  induction n with
  | zero => rfl
  | succ n ih => simpa [encodeU, decodeU] using ih

/-- The statement of `LeastElement` rests on the format alone. -/
theorem leastElement_of_format (f : Format) (rest : List Bool) :
    decodeElement f (encodeElement f 0 ++ rest) = .ok (0, rest) := by
  cases f with
  | empty => rfl
  | x n => simp [decodeElement, encodeElement, decodeX_replicate]
  | u n => exact decodeU_zero n rest
  | ue => rfl

theorem Selected.start (len : Word) : Selected.Statement (.start len) := by
  intro sel h
  cases h
  rfl

theorem Selected.readBits (n : Nat) : Selected.Statement (.readBits n) := by
  intro sel h
  cases h

theorem Selected.skip (n : Nat) : Selected.Statement (.skip n) := by
  intro sel h
  cases h

theorem Selected.ue : Selected.Statement .ue := by
  intro sel h
  cases h

theorem Selected.s1SkipN : Selected.Statement .s1SkipN := by
  intro sel h
  cases h
  rfl

theorem Selected.s2U4 : Selected.Statement .s2U4 := by
  intro sel h
  cases h
  rfl

theorem Selected.s3U3 : Selected.Statement .s3U3 := by
  intro sel h
  cases h
  rfl

theorem Selected.s4U1 : Selected.Statement .s4U1 := by
  intro sel h
  cases h
  rfl

theorem Selected.s5Pspace : Selected.Statement .s5Pspace := by
  intro sel h
  cases h
  rfl

theorem Selected.s6Tier : Selected.Statement .s6Tier := by
  intro sel h
  cases h
  rfl

theorem Selected.s7Pidc : Selected.Statement .s7Pidc := by
  intro sel h
  cases h
  rfl

theorem Selected.s8Skip32 : Selected.Statement .s8Skip32 := by
  intro sel h
  cases h
  rfl

theorem Selected.s9Skip16 : Selected.Statement .s9Skip16 := by
  intro sel h
  cases h
  rfl

theorem Selected.s10Level : Selected.Statement .s10Level := by
  intro sel h
  cases h
  rfl

theorem Selected.s11Ue : Selected.Statement .s11Ue := by
  intro sel h
  cases h
  rfl

theorem Selected.s12Chroma : Selected.Statement .s12Chroma := by
  intro sel h
  cases h
  rfl

theorem Selected.s13U1 : Selected.Statement .s13U1 := by
  intro sel h
  cases h
  rfl

theorem Selected.s14Picw : Selected.Statement .s14Picw := by
  intro sel h
  cases h
  rfl

theorem Selected.s15Pich : Selected.Statement .s15Pich := by
  intro sel h
  cases h
  rfl

theorem Selected.s16Cwf : Selected.Statement .s16Cwf := by
  intro sel h
  cases h
  rfl

theorem Selected.s17Cleft : Selected.Statement .s17Cleft := by
  intro sel h
  cases h
  rfl

theorem Selected.s18Cright : Selected.Statement .s18Cright := by
  intro sel h
  cases h
  rfl

theorem Selected.s19Ctop : Selected.Statement .s19Ctop := by
  intro sel h
  cases h
  rfl

theorem Selected.s20Cbot : Selected.Statement .s20Cbot := by
  intro sel h
  cases h
  rfl

theorem Selected.s21Bdlm8 : Selected.Statement .s21Bdlm8 := by
  intro sel h
  cases h
  rfl

theorem Selected.s22Bdcm8 : Selected.Statement .s22Bdcm8 := by
  intro sel h
  cases h
  rfl

theorem Selected.s23Assemble : Selected.Statement .s23Assemble := by
  intro sel h
  cases h
  rfl

theorem LeastElement.start (len : Word) : LeastElement.Statement (.start len) :=
  fun _ rest _ => leastElement_of_format _ rest

theorem LeastElement.readBits (n : Nat) : LeastElement.Statement (.readBits n) :=
  fun _ rest _ => leastElement_of_format _ rest

theorem LeastElement.skip (n : Nat) : LeastElement.Statement (.skip n) :=
  fun _ rest _ => leastElement_of_format _ rest

theorem LeastElement.ue : LeastElement.Statement .ue :=
  fun _ rest _ => leastElement_of_format _ rest

theorem LeastElement.s1SkipN : LeastElement.Statement .s1SkipN :=
  fun _ rest _ => leastElement_of_format _ rest

theorem LeastElement.s2U4 : LeastElement.Statement .s2U4 :=
  fun _ rest _ => leastElement_of_format _ rest

theorem LeastElement.s3U3 : LeastElement.Statement .s3U3 :=
  fun _ rest _ => leastElement_of_format _ rest

theorem LeastElement.s4U1 : LeastElement.Statement .s4U1 :=
  fun _ rest _ => leastElement_of_format _ rest

theorem LeastElement.s5Pspace : LeastElement.Statement .s5Pspace :=
  fun _ rest _ => leastElement_of_format _ rest

theorem LeastElement.s6Tier : LeastElement.Statement .s6Tier :=
  fun _ rest _ => leastElement_of_format _ rest

theorem LeastElement.s7Pidc : LeastElement.Statement .s7Pidc :=
  fun _ rest _ => leastElement_of_format _ rest

theorem LeastElement.s8Skip32 : LeastElement.Statement .s8Skip32 :=
  fun _ rest _ => leastElement_of_format _ rest

theorem LeastElement.s9Skip16 : LeastElement.Statement .s9Skip16 :=
  fun _ rest _ => leastElement_of_format _ rest

theorem LeastElement.s10Level : LeastElement.Statement .s10Level :=
  fun _ rest _ => leastElement_of_format _ rest

theorem LeastElement.s11Ue : LeastElement.Statement .s11Ue :=
  fun _ rest _ => leastElement_of_format _ rest

theorem LeastElement.s12Chroma : LeastElement.Statement .s12Chroma :=
  fun _ rest _ => leastElement_of_format _ rest

theorem LeastElement.s13U1 : LeastElement.Statement .s13U1 :=
  fun _ rest _ => leastElement_of_format _ rest

theorem LeastElement.s14Picw : LeastElement.Statement .s14Picw :=
  fun _ rest _ => leastElement_of_format _ rest

theorem LeastElement.s15Pich : LeastElement.Statement .s15Pich :=
  fun _ rest _ => leastElement_of_format _ rest

theorem LeastElement.s16Cwf : LeastElement.Statement .s16Cwf :=
  fun _ rest _ => leastElement_of_format _ rest

theorem LeastElement.s17Cleft : LeastElement.Statement .s17Cleft :=
  fun _ rest _ => leastElement_of_format _ rest

theorem LeastElement.s18Cright : LeastElement.Statement .s18Cright :=
  fun _ rest _ => leastElement_of_format _ rest

theorem LeastElement.s19Ctop : LeastElement.Statement .s19Ctop :=
  fun _ rest _ => leastElement_of_format _ rest

theorem LeastElement.s20Cbot : LeastElement.Statement .s20Cbot :=
  fun _ rest _ => leastElement_of_format _ rest

theorem LeastElement.s21Bdlm8 : LeastElement.Statement .s21Bdlm8 :=
  fun _ rest _ => leastElement_of_format _ rest

theorem LeastElement.s22Bdcm8 : LeastElement.Statement .s22Bdcm8 :=
  fun _ rest _ => leastElement_of_format _ rest

theorem LeastElement.s23Assemble : LeastElement.Statement .s23Assemble :=
  fun _ rest _ => leastElement_of_format _ rest

end Sys2Proof.Laws
end

