-- ==== Sys2Proof/Laws/Steps.lean ====
section
/-!
SUPPORT. Everything a step row, START, S23 and one transition of the machine can do, said once each.
-/

namespace Sys2Proof.Machine

open Sys2Proof

/-! ## The three kinds of step -/

/-- What a row that reads `u(n)` leaves. -/
theorem performU_next {n : Nat} {d : Option FieldReg} {nx : State → StepName} {s t : State}
    (h : performU n d nx s = .next t) :
    (∃ v, readBits n s = .value v (s.setOff (s.off + n)) ∧ s.off + n ≤ 8 * s.len.toNat ∧
      t = ((s.setOff (s.off + n)).writeDest d v).goto (nx ((s.setOff (s.off + n)).writeDest d v))) ∨
    (8 * s.len.toNat < s.off + n ∧ t = s.abort .bufferUnderrun) := by
  rcases OpResult.finish_eq_next h with ⟨v, s', hr, rfl⟩ | ⟨k, s', hr, rfl⟩
  · obtain ⟨_, _, hl, _, rfl, _, _⟩ := readBits_value hr
    exact .inl ⟨v, hr, hl, rfl⟩
  · obtain ⟨_, _, hl, rfl, rfl⟩ := readBits_raised hr
    exact .inr ⟨hl, rfl⟩

/-- What a row that passes over `x(n)` leaves. -/
theorem performSkip_next {n : Nat} {nx : StepName} {s t : State} (h : performSkip n nx s = .next t) :
    (s.off + n ≤ 8 * s.len.toNat ∧ t = (s.setOff (s.off + n)).goto nx) ∨
    (8 * s.len.toNat < s.off + n ∧ t = s.abort .bufferUnderrun) := by
  unfold performSkip at h
  rcases skip_cases n s with ⟨hl, he⟩ | ⟨hl, he⟩ <;> rw [he] at h
  · cases h; exact .inr ⟨hl, rfl⟩
  · cases h; exact .inl ⟨hl, rfl⟩

/-- What a row that decodes `ue(v)` leaves. -/
theorem performUe_next {d : Option FieldReg} {nx : State → StepName} {s t : State} (h : performUe d nx s = .next t) :
    (∃ k v, s.CodeAt k ∧ v.toNat = s.codeValue k ∧ ue s = .value v (s.ueAt (s.off + 2 * k + 1) k) ∧
      t = ((s.ueAt (s.off + 2 * k + 1) k).writeDest d v).goto (nx ((s.ueAt (s.off + 2 * k + 1) k).writeDest d v))) ∨
    (∃ e p k, ue s = .raised e (s.ueAt p k) ∧ s.off ≤ p ∧ (s.off ≤ 8 * s.len.toNat → p ≤ 8 * s.len.toNat) ∧
      (e = .codeTooLong → p = s.off + 31) ∧ t = (s.ueAt p k).abort e) := by
  rcases OpResult.finish_eq_next h with ⟨v, s', hr, rfl⟩ | ⟨e, s', hr, rfl⟩
  · obtain ⟨k, hc, _, _, hv, rfl⟩ := ue_value hr
    exact .inl ⟨k, v, hc, hv, hr, rfl⟩
  · obtain ⟨p, k, rfl, hp, hpl, _, he⟩ := ue_raised hr
    exact .inr ⟨e, p, k, hr, hp, hpl, he, rfl⟩

/-- Every row S1 to S22 is one of the three kinds, with the format and the destination of the table. -/
theorem exec_kind (i : Instr) (s : State) (h : isStepRow i = true) (h23 : i ≠ .s23Assemble) :
    (∃ n nx, i.format s.cfg.nalSkipBits.val = .u n ∧ 1 ≤ n ∧ n ≤ 32 ∧ exec i s = performU n (destOf i) nx s) ∨
    (∃ n nx, i.format s.cfg.nalSkipBits.val = .x n ∧ destOf i = none ∧ exec i s = performSkip n nx s) ∨
    (∃ nx, i.format s.cfg.nalSkipBits.val = .ue ∧ exec i s = performUe (destOf i) nx s) := by
  cases i with
  | start len => cases h
  | readBits n => cases h
  | skip n => cases h
  | ue => cases h
  | s1SkipN => exact .inr (.inl ⟨_, .s2, rfl, rfl, rfl⟩)
  | s2U4 => exact .inl ⟨4, fun _ => .s3, rfl, by decide, by decide, rfl⟩
  | s3U3 => exact .inl ⟨3, fun _ => .s4, rfl, by decide, by decide, rfl⟩
  | s4U1 => exact .inl ⟨1, fun _ => .s5, rfl, by decide, by decide, rfl⟩
  | s5Pspace => exact .inl ⟨2, fun _ => .s6, rfl, by decide, by decide, rfl⟩
  | s6Tier => exact .inl ⟨1, fun _ => .s7, rfl, by decide, by decide, rfl⟩
  | s7Pidc => exact .inl ⟨5, fun _ => .s8, rfl, by decide, by decide, rfl⟩
  | s8Skip32 => exact .inr (.inl ⟨_, .s9, rfl, rfl, rfl⟩)
  | s9Skip16 => exact .inr (.inl ⟨_, .s10, rfl, rfl, rfl⟩)
  | s10Level => exact .inl ⟨8, fun _ => .s11, rfl, by decide, by decide, rfl⟩
  | s11Ue => exact .inr (.inr ⟨fun _ => .s12, rfl, rfl⟩)
  | s12Chroma => exact .inr (.inr ⟨State.afterChroma, rfl, rfl⟩)
  | s13U1 => exact .inl ⟨1, fun _ => .s14, rfl, by decide, by decide, rfl⟩
  | s14Picw => exact .inr (.inr ⟨fun _ => .s15, rfl, rfl⟩)
  | s15Pich => exact .inr (.inr ⟨fun _ => .s16, rfl, rfl⟩)
  | s16Cwf => exact .inl ⟨1, State.afterCwf, rfl, by decide, by decide, rfl⟩
  | s17Cleft => exact .inr (.inr ⟨fun _ => .s18, rfl, rfl⟩)
  | s18Cright => exact .inr (.inr ⟨fun _ => .s19, rfl, rfl⟩)
  | s19Ctop => exact .inr (.inr ⟨fun _ => .s20, rfl, rfl⟩)
  | s20Cbot => exact .inr (.inr ⟨fun _ => .s21, rfl, rfl⟩)
  | s21Bdlm8 => exact .inr (.inr ⟨fun _ => .s22, rfl, rfl⟩)
  | s22Bdcm8 => exact .inr (.inr ⟨fun _ => .s23, rfl, rfl⟩)
  | s23Assemble => exact absurd rfl h23

/-- A step row is never refused (R107, R192). -/
theorem exec_stepRow_not_refused {i : Instr} {s : State} {r : Refusal} (h : isStepRow i = true) :
    exec i s ≠ .refused r := by
  intro he
  by_cases h23 : i = .s23Assemble
  · subst h23
    simp only [exec, execS23Assemble] at he
    split at he <;> cases he
  · rcases exec_kind i s h h23 with ⟨n, nx, _, h1, h32, hx⟩ | ⟨n, nx, _, _, hx⟩ | ⟨nx, _, hx⟩ <;> rw [hx] at he
    · exact (readBits_refused (OpResult.finish_eq_refused he)).1 ⟨h1, h32⟩
    · rcases skip_cases n s with ⟨_, hs⟩ | ⟨_, hs⟩ <;> simp [performSkip, hs] at he
    · exact ue_not_refused (OpResult.finish_eq_refused he)

/-- A row S1 to S22 stops only at a byte the host never placed. -/
theorem exec_stepRow_fault {i : Instr} {s : State} {f : Fault} (h : isStepRow i = true) (h23 : i ≠ .s23Assemble)
    (he : exec i s = .fault f) : ∃ a, f = .byteAbsent a ∧ a < s.len.toNat ∧ s.mem.read a = none := by
  rcases exec_kind i s h h23 with ⟨n, nx, _, h1, h32, hx⟩ | ⟨n, nx, _, _, hx⟩ | ⟨nx, _, hx⟩ <;> rw [hx] at he
  · exact readBits_fault (OpResult.finish_eq_fault he)
  · rcases skip_cases n s with ⟨_, hs⟩ | ⟨_, hs⟩ <;> simp [performSkip, hs] at he
  · exact ue_fault (OpResult.finish_eq_fault he)

/-! ## S23 -/

/-- What S23 leaves: the record and `DONE`. -/
theorem execS23_next {s t : State} (h : exec .s23Assemble s = .next t) :
    ∃ r, assemble s.x = .ok r ∧ t = s.complete r := by
  simp only [exec, execS23Assemble] at h
  split at h
  · rename_i r hr
    cases h
    exact ⟨r, hr, rfl⟩
  · cases h

/-! ## START -/

/-- The three ends of a START. -/
theorem exec_start_cases (len : Word) (s : State) :
    (s.phase = .busy ∧ exec (.start len) s = .next s) ∨
    (s.phase ≠ .busy ∧ 8 * len.toNat < 2 ^ 32 ∧ exec (.start len) s = .next (s.accept len)) ∨
    (s.phase ≠ .busy ∧ 2 ^ 32 ≤ 8 * len.toNat ∧ exec (.start len) s = .refused (.lenTooLarge len)) := by
  simp only [exec, execStart]
  by_cases hb : s.phase = .busy
  · exact .inl ⟨hb, by rw [if_pos hb]⟩
  · rw [if_neg hb]
    by_cases hl : 8 * len.toNat < 2 ^ 32
    · rw [if_pos ((lenOk_iff len).mpr hl)]
      exact .inr (.inl ⟨hb, hl, rfl⟩)
    · rw [if_neg (by rw [lenOk_iff]; exact hl)]
      exact .inr (.inr ⟨hb, by omega, rfl⟩)

/-! ## The row of `STEP` -/

/-- The row the sequencer performs in each of S1 to S23 (30_encoding.md R84). -/
theorem decodeStep_code (st : StepName) (h : 1 ≤ st.index) :
    ∃ i, decodeStep st.code = .ok i ∧ isStepRow i = true ∧ stepCode i = some st.code := by
  cases st <;> first
    | exact ⟨_, rfl, rfl, rfl⟩
    | exact absurd h (by decide)

theorem decodeStep_ok {st : StepName} {i : Instr} (h : decodeStep st.code = .ok i) :
    1 ≤ st.index ∧ isStepRow i = true ∧ (i = .s23Assemble ↔ st = .s23) := by
  cases st <;> cases h <;> exact ⟨by decide, rfl, by decide⟩

/-- What the sequencer's turn selects. -/
theorem selectRow_false (s : State) (len : Word) :
    (s.phase ≠ .busy ∧ s.selectRow false len = .idle) ∨
    (s.phase = .busy ∧ s.step = .s0 ∧ s.selectRow false len = .noStep) ∨
    (s.phase = .busy ∧ ∃ i, decodeStep s.step.code = .ok i ∧ s.selectRow false len = .run i) := by
  unfold State.selectRow decodeSelector State.selector
  by_cases hb : s.phase = .busy
  · by_cases h0 : s.step = .s0
    · refine .inr (.inl ⟨hb, h0, ?_⟩)
      rw [h0]
      simp [hb]
      rfl
    · have : 1 ≤ s.step.index := by
        cases hs : s.step <;> first | exact absurd hs h0 | decide
      obtain ⟨i, hi, _, _⟩ := decodeStep_code s.step this
      exact .inr (.inr ⟨hb, i, hi, by simp [hb, hi]⟩)
  · exact .inl ⟨hb, by simp [hb]⟩

theorem selectRow_true (s : State) (len : Word) : s.selectRow true len = .run (.start len) := by
  simp [State.selectRow, decodeSelector, State.selector]

/-! ## One transition -/

/-- Everything one transition of the machine can be. -/
theorem step_cases (s : State) :
    (∃ st len rest, s.host = .clock true st len :: rest ∧ step s = .next s.consume.doReset) ∨
    (∃ bytes rest, s.host = .place bytes :: rest ∧ step s = s.consume.place bytes) ∨
    (∃ len rest, s.host = .clock false true len :: rest ∧ step s = exec (.start len) s.consume) ∨
    ((s.host = [] ∨ ∃ len rest, s.host = .clock false false len :: rest) ∧
      ((s.phase ≠ .busy ∧ step s = .next s.consume) ∨
       (s.phase = .busy ∧ s.step = .s0 ∧ step s = .fault .noStep) ∨
       (s.phase = .busy ∧ ∃ i, decodeStep s.step.code = .ok i ∧ step s = exec i s.consume))) := by
  have turn : ∀ len, s.select = s.selectRow false len →
      ((s.phase ≠ .busy ∧ step s = .next s.consume) ∨
       (s.phase = .busy ∧ s.step = .s0 ∧ step s = .fault .noStep) ∨
       (s.phase = .busy ∧ ∃ i, decodeStep s.step.code = .ok i ∧ step s = exec i s.consume)) := by
    intro len hsel
    rcases selectRow_false s len with ⟨hb, h⟩ | ⟨hb, h0, h⟩ | ⟨hb, i, hi, h⟩
    · exact .inl ⟨hb, by simp [step, hsel, h]⟩
    · exact .inr (.inl ⟨hb, h0, by simp [step, hsel, h]⟩)
    · exact .inr (.inr ⟨hb, i, hi, by simp [step, hsel, h]⟩)
  cases hh : s.host with
  | nil => exact .inr (.inr (.inr ⟨.inl rfl, turn 0 (by simp [State.select, hh])⟩))
  | cons m rest =>
    cases m with
    | place bytes => exact .inr (.inl ⟨bytes, rest, rfl, by simp [step, State.select, hh]⟩)
    | clock rst start len =>
      cases rst with
      | true => exact .inl ⟨start, len, rest, rfl, by simp [step, State.select, hh]⟩
      | false =>
        cases start with
        | true => exact .inr (.inr (.inl ⟨len, rest, rfl, by simp [step, State.select, hh, selectRow_true]⟩))
        | false => exact .inr (.inr (.inr ⟨.inr ⟨len, rest, rfl⟩, turn len (by simp [State.select, hh])⟩))

theorem consume_of_host_nil {s : State} (h : s.host = []) : s.consume = s := by
  cases s
  simp only at h
  subst h
  rfl

end Sys2Proof.Machine
end

