-- ==== Sys2Proof/Tests/Slice0.lean ====
section
/-!
SUPPORT. Tests of one step each, with the expected values of 95_test_vectors.md, and for every statement with hypotheses
a named witness that meets them (`witness_<statement>`), at the ends of the ranges its clauses speak of.
-/

namespace Sys2Proof.Tests

open Sys2Proof Sys2Proof.Machine

/-! ## Helpers -/

/-- A running parse of a buffer, at a step and an offset. -/
def busyAt (bytes : List Byte) (st : StepName) (off : Nat) : State :=
  { State.reset with
    phase := .busy
    step  := st
    off   := off
    len   := BitVec.ofNat 32 bytes.length
    mem   := Memory.ofBytes 0 bytes }

/-- The same with field registers. -/
def busyWith (bytes : List Byte) (st : StepName) (off : Nat) (f : Fields) : State :=
  { busyAt bytes st off with x := f }

/-- The outcome is a next state of which `p` holds. -/
def nextIs (o : Host.Outcome State Fault Refusal) (p : State → Bool) : Bool :=
  match o with
  | .next t => p t
  | .fault _ => false
  | .refused _ => false

/-- The outcome is this fault. -/
def faultIs (o : Host.Outcome State Fault Refusal) (f : Fault) : Bool :=
  match o with
  | .next _ => false
  | .fault g => decide (g = f)
  | .refused _ => false

/-- The outcome is this refusal. -/
def refusedIs (o : Host.Outcome State Fault Refusal) (r : Refusal) : Bool :=
  match o with
  | .next _ => false
  | .fault _ => false
  | .refused q => decide (q = r)

/-- `STEP` and `OFF` of a parse that goes on. -/
def at' (st : StepName) (off : Nat) (t : State) : Bool := decide (t.phase = .busy ∧ t.step = st ∧ t.off = off)

/-- `ERR`, `STEP` and `OFF` of a parse that failed. -/
def failed (k : ErrKind) (st : StepName) (off : Nat) (t : State) : Bool :=
  decide (t.phase = .error ∧ t.err = some k ∧ t.step = st ∧ t.off = off)

/-- Buffer `B` of 95_test_vectors.md V1. -/
def bufB : List Byte := [0xA5, 0x3C, 0xF0, 0x0F, 0x81]

/-- Program P1. -/
def bufP1 : List Byte :=
  [0, 0, 0, 0, 0, 0x42, 0, 0, 0, 0, 0, 0, 0x5D, 0xA0, 0x03, 0xC0, 0x80, 0x10, 0xE5, 0x80]

/-- Program P2. -/
def bufP2 : List Byte :=
  [0x42, 1, 1, 1, 1, 0x21, 0x60, 0, 0, 0, 0x90, 0, 0x78, 0x92, 0, 0x78, 0x10, 2, 0x1C, 0xE2, 0x65, 0x6F]

/-- The field registers at S23 of a parse with a window: P2's values, with the offsets given. -/
def windowFields (w h l r t b : Word) : Fields :=
  ⟨some 0, some 1, some 1, some 120, some 3, some w, some h, some 1, some l, some r, some t, some b, some 2, some 2⟩

/-- The field registers at S23 of P1. -/
def plainFields : Fields :=
  ⟨some 1, some 0, some 2, some 93, some 1, some 1920, some 1080, some 0, none, none, none, none, some 0, some 0⟩

/-! ## WellFormed: what each check refuses (R100, R107, R225) -/

theorem test_wf_read_zero : (Instr.readBits 0).wellFormed = false := by decide
theorem test_wf_read_33 : (Instr.readBits 33).wellFormed = false := by decide
theorem test_wf_read_ends : (Instr.readBits 1).wellFormed = true ∧ (Instr.readBits 32).wellFormed = true := by decide
theorem test_wf_len_large : (Instr.start (BitVec.ofNat 32 (2 ^ 29))).wellFormed = false := by decide
theorem test_wf_len_end : (Instr.start (BitVec.ofNat 32 (2 ^ 29 - 1))).wellFormed = true := by decide
theorem test_wf_skip_zero : (Instr.skip 0).wellFormed = true := by decide

/-! ## Decoding: every constructor by its position (R84), and elements written out bit by bit (R71 to R77) -/

/-- The code of `STEP`, most significant bit first, and its row (R25, R84). -/
theorem test_decode_steps_1_to_8 :
    decodeStep 0b00001 = .ok .s1SkipN ∧ decodeStep 0b00010 = .ok .s2U4 ∧ decodeStep 0b00011 = .ok .s3U3 ∧
    decodeStep 0b00100 = .ok .s4U1 ∧ decodeStep 0b00101 = .ok .s5Pspace ∧ decodeStep 0b00110 = .ok .s6Tier ∧
    decodeStep 0b00111 = .ok .s7Pidc ∧ decodeStep 0b01000 = .ok .s8Skip32 := ⟨rfl, rfl, rfl, rfl, rfl, rfl, rfl, rfl⟩
theorem test_decode_steps_9_to_16 :
    decodeStep 0b01001 = .ok .s9Skip16 ∧ decodeStep 0b01010 = .ok .s10Level ∧ decodeStep 0b01011 = .ok .s11Ue ∧
    decodeStep 0b01100 = .ok .s12Chroma ∧ decodeStep 0b01101 = .ok .s13U1 ∧ decodeStep 0b01110 = .ok .s14Picw ∧
    decodeStep 0b01111 = .ok .s15Pich ∧ decodeStep 0b10000 = .ok .s16Cwf := ⟨rfl, rfl, rfl, rfl, rfl, rfl, rfl, rfl⟩
theorem test_decode_steps_17_to_23 :
    decodeStep 0b10001 = .ok .s17Cleft ∧ decodeStep 0b10010 = .ok .s18Cright ∧ decodeStep 0b10011 = .ok .s19Ctop ∧
    decodeStep 0b10100 = .ok .s20Cbot ∧ decodeStep 0b10101 = .ok .s21Bdlm8 ∧ decodeStep 0b10110 = .ok .s22Bdcm8 ∧
    decodeStep 0b10111 = .ok .s23Assemble := ⟨rfl, rfl, rfl, rfl, rfl, rfl, rfl⟩
theorem test_decode_no_step : decodeStep 0b00000 = .error (.noSuchStep 0) ∧ decodeStep 0b11000 = .error (.noSuchStep 24) :=
  ⟨rfl, rfl⟩
theorem test_decode_start : decodeSelector ⟨true, 20, true, 5⟩ = .ok (.start 20) := rfl
theorem test_decode_idle : decodeSelector ⟨false, 0, false, 5⟩ = .error .idle := rfl
/-- `u(n)` for READBITS: `A5 3C`, first 3 bits `101` (V1). -/
theorem test_decode_u : decodeElement ((Instr.readBits 3).format 32) [true, false, true, false] = .ok (5, [false]) := rfl
/-- `x(n)` for SKIP: passed over whatever they are (R72). -/
theorem test_decode_x : decodeElement ((Instr.skip 2).format 32) [true, false, true] = .ok (0, [true]) := rfl
/-- `ue(v)` for UE: `00101` is 4 (V7). -/
theorem test_decode_ue :
    decodeElement (Instr.ue.format 32) [false, false, true, false, true, true] = .ok (4, [true]) := rfl
/-- Byte 5 of P1, `42` = `01000010`: 2 bits, 1 bit, 5 bits (R147 to R149). -/
theorem test_decode_byte5 :
    decode 32 ⟨false, 0, true, 5⟩ (bitsOfBytes [0x42]) = .ok (.s5Pspace, 1, [false, false, false, false, true, false]) ∧
    decode 32 ⟨false, 0, true, 6⟩ [false, false, false, false, true, false] =
      .ok (.s6Tier, 0, [false, false, false, true, false]) ∧
    decode 32 ⟨false, 0, true, 7⟩ [false, false, false, true, false] = .ok (.s7Pidc, 2, []) := by decide
/-- P1's width code, 21 bits (R156). -/
theorem test_decode_picw :
    decode 32 ⟨false, 0, true, 14⟩
      (List.replicate 10 false ++ [true, true, true, true, false, false, false, false, false, false, true]) =
      .ok (.s14Picw, 1920, []) := by decide
/-- The element of each further row, written out from R77, R78, R84. -/
theorem test_decode_discarded :
    decode 32 ⟨false, 0, true, 2⟩ [true, false, true, true] = .ok (.s2U4, 11, []) ∧
    decode 32 ⟨false, 0, true, 3⟩ [true, true, false] = .ok (.s3U3, 6, []) ∧
    decode 32 ⟨false, 0, true, 4⟩ [true] = .ok (.s4U1, 1, []) ∧
    decode 32 ⟨false, 0, true, 11⟩ [true] = .ok (.s11Ue, 0, []) ∧
    decode 32 ⟨false, 0, true, 13⟩ [true] = .ok (.s13U1, 1, []) := by decide
theorem test_decode_skipped :
    decode 16 ⟨false, 0, true, 1⟩ (List.replicate 17 true) = .ok (.s1SkipN, 0, [true]) ∧
    decode 32 ⟨false, 0, true, 8⟩ (List.replicate 33 true) = .ok (.s8Skip32, 0, [true]) ∧
    decode 32 ⟨false, 0, true, 9⟩ (List.replicate 15 true) = .error .truncated := by decide
theorem test_decode_level_picture :
    decode 32 ⟨false, 0, true, 10⟩ (bitsOfBytes [0x5D]) = .ok (.s10Level, 93, []) ∧
    decode 32 ⟨false, 0, true, 12⟩ [false, false, true, false, false] = .ok (.s12Chroma, 3, []) ∧
    decode 32 ⟨false, 0, true, 15⟩ [false, true, true] = .ok (.s15Pich, 2, []) ∧
    decode 32 ⟨false, 0, true, 16⟩ [true] = .ok (.s16Cwf, 1, []) := by decide
theorem test_decode_window :
    decode 32 ⟨false, 0, true, 17⟩ [true] = .ok (.s17Cleft, 0, []) ∧
    decode 32 ⟨false, 0, true, 18⟩ [false, false, false, true, false, false, true] = .ok (.s18Cright, 8, []) ∧
    decode 32 ⟨false, 0, true, 19⟩ [true] = .ok (.s19Ctop, 0, []) ∧
    decode 32 ⟨false, 0, true, 20⟩ [false, false, true, false, true] = .ok (.s20Cbot, 4, []) := by decide
theorem test_decode_depth_assemble :
    decode 32 ⟨false, 0, true, 21⟩ [false, true, true] = .ok (.s21Bdlm8, 2, []) ∧
    decode 32 ⟨false, 0, true, 22⟩ [false, true, true] = .ok (.s22Bdcm8, 2, []) ∧
    decode 32 ⟨false, 0, true, 23⟩ [] = .ok (.s23Assemble, 0, []) := by decide
/-- 31 zeros and a one: no code (R82). -/
theorem test_decode_too_long : decodeUe (List.replicate 31 false ++ [true]) = .error .codeTooLong := by decide
/-- R76's encoder on the classes' ends (R75). -/
theorem test_encode_ue :
    encodeUe 0 = [true] ∧ encodeUe 2 = [false, true, true] ∧ encodeUe 3 = [false, false, true, false, false] ∧
    encodeUe 14 = [false, false, false, true, true, true, true] := by decide

/-! ## One step, the operations (V1 to V10) -/

theorem test_start_from_error :
    nextIs (exec (.start 12) { busyWith bufP2 .s14 99 plainFields with phase := .error, err := some .codeTooLong })
      (fun t => at' .s1 0 t && decide (t.err = none ∧ t.len = 12 ∧ t.x = Fields.empty ∧ t.out = none)) = true := by
  decide
theorem test_start_in_busy : nextIs (exec (.start 1) (busyAt bufP2 .s14 111)) (fun t => decide (t = busyAt bufP2 .s14 111)) = true := by
  decide
/-- V2: `A53CF00F`, no truncation. -/
theorem test_readBits_full :
    nextIs (exec (.readBits 32) (busyAt bufB .s2 0)) (fun t => decide (t.ret = some 0xA53CF00F ∧ t.off = 32)) = true := by
  decide
/-- V3: `53CF00F8`, over five bytes. -/
theorem test_readBits_unaligned :
    nextIs (exec (.readBits 32) (busyAt bufB .s2 4)) (fun t => decide (t.ret = some 0x53CF00F8 ∧ t.off = 36)) = true := by
  decide
/-- V5. -/
theorem test_skip_all : nextIs (exec (.skip 40) (busyAt bufB .s2 0)) (at' .s2 40) = true := by decide
theorem test_skip_beyond : nextIs (exec (.skip 41) (busyAt bufB .s2 0)) (failed .bufferUnderrun .s2 0) = true := by decide
/-- V7: the largest value. -/
theorem test_ue_largest :
    nextIs (exec .ue (busyAt [0, 0, 0, 3, 0xFF, 0xFF, 0xFF, 0xF8] .s11 0))
      (fun t => decide (t.ret = some 2147483646 ∧ t.off = 61)) = true := by decide
/-- V9: exactly 31 zeros, to the end of the buffer. -/
theorem test_ue_tie : nextIs (exec .ue (busyAt [0x80, 0, 0, 0] .s11 1)) (failed .codeTooLong .s11 32) = true := by decide

/-! ## One step, S1 to S22 (P1, P2 and the vectors named) -/

theorem test_s1_passes : nextIs (step (busyAt bufP2 .s1 0)) (at' .s2 32) = true := by decide
theorem test_s1_zero :
    nextIs (step { busyAt [] .s1 0 with cfg := ⟨0⟩ }) (at' .s2 0) = true := by decide
theorem test_s2_reads : nextIs (step (busyAt bufP2 .s2 32)) (at' .s3 36) = true := by decide
/-- V11, `LEN = 4`. -/
theorem test_s2_underrun : nextIs (step (busyAt [0, 0, 0, 0] .s2 32)) (failed .bufferUnderrun .s2 32) = true := by decide
theorem test_s3_reads : nextIs (step (busyAt bufP2 .s3 36)) (at' .s4 39) = true := by decide
theorem test_s4_reads : nextIs (step (busyAt bufP2 .s4 39)) (at' .s5 40) = true := by decide
theorem test_s5_reads :
    nextIs (step (busyAt bufP1 .s5 40)) (fun t => at' .s6 42 t && decide (t.x = { Fields.empty with pspace := some 1 })) =
      true := by decide
theorem test_s6_reads :
    nextIs (step (busyAt bufP2 .s6 42)) (fun t => at' .s7 43 t && decide (t.x = { Fields.empty with tier := some 1 })) =
      true := by decide
theorem test_s7_reads :
    nextIs (step (busyAt bufP1 .s7 43)) (fun t => at' .s8 48 t && decide (t.x = { Fields.empty with pidc := some 2 })) =
      true := by decide
theorem test_s8_passes : nextIs (step (busyAt bufP2 .s8 48)) (at' .s9 80) = true := by decide
/-- V11, `LEN = 9`. -/
theorem test_s8_underrun : nextIs (step (busyAt (bufP1.take 9) .s8 48)) (failed .bufferUnderrun .s8 48) = true := by decide
theorem test_s9_passes : nextIs (step (busyAt bufP2 .s9 80)) (at' .s10 96) = true := by decide
theorem test_s10_reads :
    nextIs (step (busyAt bufP1 .s10 96)) (fun t => at' .s11 104 t && decide (t.x = { Fields.empty with level := some 93 })) =
      true := by decide
/-- P3. -/
theorem test_s10_underrun : nextIs (step (busyAt (bufP1.take 12) .s10 96)) (failed .bufferUnderrun .s10 96) = true := by
  decide
theorem test_s11_decodes :
    nextIs (step (busyAt bufP1 .s11 104)) (fun t => at' .s12 105 t && decide (t.x = Fields.empty)) = true := by decide
/-- P4: `CodeTooLong` with bit 135 never read. -/
theorem test_s11_too_long :
    nextIs (step (busyAt (bufP1.take 13 ++ [0, 0, 0, 0]) .s11 104)) (failed .codeTooLong .s11 135) = true := by decide
theorem test_s12_to_s14 :
    nextIs (step (busyAt bufP1 .s12 105)) (fun t => at' .s14 108 t && decide (t.x = { Fields.empty with chroma := some 1 })) =
      true := by decide
theorem test_s12_to_s13 :
    nextIs (step (busyAt bufP2 .s12 105)) (fun t => at' .s13 110 t && decide (t.x = { Fields.empty with chroma := some 3 })) =
      true := by decide
theorem test_s13_reads : nextIs (step (busyAt bufP2 .s13 110)) (at' .s14 111) = true := by decide
theorem test_s14_decodes :
    nextIs (step (busyAt bufP1 .s14 108)) (fun t => at' .s15 129 t && decide (t.x = { Fields.empty with picw := some 1920 })) =
      true := by decide
/-- V11, `LEN = 16`: the suffix of 10 bits with 9 left. -/
theorem test_s14_suffix_underrun :
    nextIs (step (busyAt (bufP1.take 16) .s14 108)) (failed .bufferUnderrun .s14 119) = true := by decide
theorem test_s15_decodes :
    nextIs (step (busyAt bufP1 .s15 129)) (fun t => at' .s16 150 t && decide (t.x = { Fields.empty with pich := some 1080 })) =
      true := by decide
/-- V11, `LEN = 17`: the count after 7 zeros. -/
theorem test_s15_count_underrun :
    nextIs (step (busyAt (bufP1.take 17) .s15 129)) (failed .bufferUnderrun .s15 136) = true := by decide
theorem test_s16_to_s21 :
    nextIs (step (busyAt bufP1 .s16 150)) (fun t => at' .s21 151 t && decide (t.x = { Fields.empty with cwf := some 0 })) =
      true := by decide
theorem test_s16_to_s17 :
    nextIs (step (busyAt bufP2 .s16 153)) (fun t => at' .s17 154 t && decide (t.x = { Fields.empty with cwf := some 1 })) =
      true := by decide
theorem test_s17_decodes :
    nextIs (step (busyAt bufP2 .s17 154)) (fun t => at' .s18 155 t && decide (t.x = { Fields.empty with cleft := some 0 })) =
      true := by decide
theorem test_s18_decodes :
    nextIs (step (busyAt bufP2 .s18 155)) (fun t => at' .s19 162 t && decide (t.x = { Fields.empty with cright := some 8 })) =
      true := by decide
theorem test_s19_decodes :
    nextIs (step (busyAt bufP2 .s19 162)) (fun t => at' .s20 163 t && decide (t.x = { Fields.empty with ctop := some 0 })) =
      true := by decide
theorem test_s20_decodes :
    nextIs (step (busyAt bufP2 .s20 163)) (fun t => at' .s21 168 t && decide (t.x = { Fields.empty with cbot := some 4 })) =
      true := by decide
theorem test_s21_decodes :
    nextIs (step (busyAt bufP2 .s21 168)) (fun t => at' .s22 171 t && decide (t.x = { Fields.empty with bdlm8 := some 2 })) =
      true := by decide
theorem test_s22_decodes :
    nextIs (step (busyAt bufP2 .s22 171)) (fun t => at' .s23 174 t && decide (t.x = { Fields.empty with bdcm8 := some 2 })) =
      true := by decide
/-- V11, `LEN = 19`. -/
theorem test_s22_underrun :
    nextIs (step (busyAt (bufP1.take 19) .s22 152)) (failed .bufferUnderrun .s22 152) = true := by decide
/-- P2's record (E4, E6). -/
theorem test_s23_window :
    nextIs (step (busyWith bufP2 .s23 174 (windowFields 1920 1080 0 8 0 4)))
      (fun t => decide (t.phase = .done ∧ t.step = .s23 ∧ t.out = some ⟨1912, 1076, 0, 1, 1, 120, 3, 10, 10⟩)) = true := by
  decide
/-- V13's subtraction. -/
theorem test_s23_wrap :
    nextIs (step (busyWith bufP2 .s23 174 (windowFields 16 16 10 10 9 8)))
      (fun t => decide (t.out.map SpsInfo.width = some 4294967292 ∧ t.out.map SpsInfo.height = some 4294967295)) = true := by
  decide

/-! ## The host's moves -/

/-- A reset wins over a START asserted with it (R220). -/
theorem test_reset_over_start :
    nextIs (step { busyWith bufP2 .s14 111 plainFields with host := [.clock true true 5] })
      (fun t => decide (t.phase = .idle ∧ t.step = .s0 ∧ t.off = 0 ∧ t.len = 0 ∧ t.x = Fields.empty)) = true := by decide
theorem test_place :
    nextIs (step { State.reset with host := [.place [7, 8]] })
      (fun t => decide (t.mem.read 0 = some 7 ∧ t.mem.read 1 = some 8 ∧ t.mem.read 2 = none)) = true := by decide
/-- The host's table word is read by the very next step, at S1. -/
theorem test_withFetchWord :
    nextIs (step (State.reset.withFetchWord 8 0xA5)) (at' .s2 32) = true ∧ decodeTableWord 8 0xA5 = some .s1SkipN := by
  decide

/-! ## Witnesses -/

/-- One value for each format, at the ends of its range. -/
theorem witness_DecodeOfEncode :
    (Instr.s12Chroma.wellFormed = true ∧ (Instr.s12Chroma.format 32).valueOk 2147483646 = true ∧
      (encode 32 .s12Chroma 2147483646).isSome = true) ∧
    (Instr.s10Level.wellFormed = true ∧ (Instr.s10Level.format 32).valueOk 255 = true ∧
      (encode 32 .s10Level 255).isSome = true) ∧
    (Instr.s1SkipN.wellFormed = true ∧ (Instr.s1SkipN.format 0).valueOk 0 = true ∧ (encode 0 .s1SkipN 0).isSome = true) ∧
    ((Instr.start 536870911).wellFormed = true ∧ ((Instr.start 536870911).format 32).valueOk 0 = true ∧
      (encode 32 (.start 536870911) 0).isSome = true) := by decide

theorem witness_UeCodesAndValuesCorrespond :
    (0 ≤ 30 ∧ 2 ^ 0 - 1 ≤ 0 ∧ 0 ≤ 2 ^ (0 + 1) - 2) ∧ (30 ≤ 30 ∧ 2 ^ 30 - 1 ≤ 2147483646 ∧ 2147483646 ≤ 2 ^ (30 + 1) - 2) ∧
    decodeUe [true] = .ok (0, []) ∧ decodeUe (List.replicate 30 false ++ List.replicate 31 true) = .ok (2147483646, []) := by
  decide

theorem witness_StepRunsDecodedRow :
    ((busyAt bufP1 .s1 0).host = [] ∧ (busyAt bufP1 .s1 0).phase = .busy ∧ decodeStep StepName.s1.code = .ok .s1SkipN) ∧
    ((busyAt bufP1 .s23 153).phase = .busy ∧ decodeStep StepName.s23.code = .ok .s23Assemble) :=
  ⟨⟨rfl, rfl, rfl⟩, rfl, rfl⟩

/-- Its two further clauses, with a move in store. -/
theorem witness_StepRunsDecodedRow_moves :
    (∃ s : State, s.host = .clock false false 3 :: [] ∧ s.phase = .busy ∧ decodeStep s.step.code = .ok .s12Chroma) ∧
    (∃ s : State, s.host = .clock false true 3 :: []) :=
  ⟨⟨{ busyAt bufP1 .s12 105 with host := [.clock false false 3] }, rfl, rfl, rfl⟩,
    { State.reset with host := [.clock false true 3] }, rfl⟩

theorem witness_NothingMovesOutsideBusy :
    ∃ s : State, s.phase = .done ∧ s.phase ≠ .busy ∧ s.host = [.place [1]] ∧
      ∀ rst start len rest, s.host = .clock rst start len :: rest → rst = false ∧ start = false :=
  ⟨{ busyAt bufP1 .s23 153 with phase := .done, host := [.place [1]] }, rfl, by decide, rfl, fun _ _ _ _ h => (by cases h)⟩

/-- With ports that are low, in `ERROR`. -/
theorem witness_NothingMovesOutsideBusy_low :
    ∃ s : State, s.phase = .error ∧ (∀ bytes rest, s.host ≠ .place bytes :: rest) ∧
      ∀ rst start len rest, s.host = .clock rst start len :: rest → rst = false ∧ start = false :=
  ⟨{ busyAt bufP1 .s11 104 with phase := .error, err := some .codeTooLong, host := [.clock false false 9] }, rfl,
    fun _ _ h => (by cases h), fun _ _ _ _ h => (by cases h; exact ⟨rfl, rfl⟩)⟩

theorem witness_ResetFromAnyState : ∃ s : State, s.phase = .busy ∧ s.host = .clock true true 5 :: [] :=
  ⟨{ busyAt bufP1 .s12 105 with host := [.clock true true 5] }, rfl, rfl⟩

theorem witness_HostPlacesBuffer :
    (∃ s : State, s.host = .place bufP1 :: [] ∧ s.phase ≠ .busy) ∧ (∃ s : State, s.host = .place [] :: [] ∧ s.phase = .busy) :=
  ⟨⟨{ State.reset with host := [.place bufP1] }, rfl, by decide⟩, { busyAt bufP1 .s12 105 with host := [.place []] }, rfl, rfl⟩

/-- `8*len` at both sides of `2^32`, for the two statements about START. -/
theorem witness_StartAcceptedOrIgnored_StartRefusesTooLargeLen :
    State.reset.phase ≠ .busy ∧ 8 * (BitVec.ofNat 32 (2 ^ 29 - 1)).toNat < 2 ^ 32 ∧ 2 ^ 32 ≤ 8 * (BitVec.ofNat 32 (2 ^ 29)).toNat ∧
      (busyAt bufP1 .s2 32).phase = .busy := by decide

theorem witness_StreamBitMapping :
    (0 < 8 * (busyAt bufB .s1 0).len.toNat ∧ (busyAt bufB .s1 0).mem.read 0 = some 0xA5) ∧
    (39 < 8 * (busyAt bufB .s1 0).len.toNat ∧ (busyAt bufB .s1 0).mem.read (39 / 8) = some 0x81) := by decide

theorem witness_MemReadOnlyBelowLen :
    (busyAt bufB .s1 0).len.toNat ≤ 5 ∧ 4 < (busyAt bufB .s1 0).len.toNat ∧ (busyAt bufB .s1 0).mem.read 4 = some 0x81 := by
  decide

/-- `n = 1` and `n = 32`, ending at the end of the buffer and one bit beyond: for the reads, the skip and the rows S1 to S10,
S13, S16. -/
theorem witness_ReadBitsEffect_SkipEffect :
    (busyAt bufB .s2 39).Present ∧ (busyAt bufB .s2 39).off + 1 = 8 * (busyAt bufB .s2 39).len.toNat ∧
    (busyAt bufB .s2 8).off + 32 = 8 * (busyAt bufB .s2 8).len.toNat ∧
    8 * (busyAt bufB .s2 40).len.toNat < (busyAt bufB .s2 40).off + 1 ∧
    8 * (busyAt bufB .s2 9).len.toNat < (busyAt bufB .s2 9).off + 32 := by decide

theorem witness_ReadBitsSplits :
    (busyAt bufB .s2 8).Present ∧ 1 + 31 ≤ 32 ∧ (busyAt bufB .s2 8).off + (1 + 31) ≤ 8 * (busyAt bufB .s2 8).len.toNat ∧
    8 * (busyAt bufB .s2 9).len.toNat < (busyAt bufB .s2 9).off + (31 + 1) ∧
    (busyAt bufB .s2 9).off + 31 ≤ 8 * (busyAt bufB .s2 9).len.toNat ∧
    8 * (busyAt bufB .s2 10).len.toNat < (busyAt bufB .s2 10).off + 31 := by decide

theorem witness_ReadWidthRefused :
    refusedIs (exec (.readBits 0) (busyAt bufB .s2 0)) (.readWidth 0) = true ∧
    refusedIs (exec (.readBits 33) (busyAt bufB .s2 0)) (.readWidth 33) = true ∧ isStepRow .s1SkipN = true := by decide

theorem witness_SkipIsDiscardedRead : 1 ≤ 1 ∧ 32 ≤ 32 ∧ (busyAt bufB .s2 8).Present := by decide

theorem witness_AlignedWordIsBigEndian :
    (busyAt bufB .s2 8).off = 8 * 1 ∧ 1 + 4 ≤ (busyAt bufB .s2 8).len.toNat ∧ (busyAt bufB .s2 8).mem.read 1 = some 0x3C ∧
    (busyAt bufB .s2 8).mem.read (1 + 1) = some 0xF0 ∧ (busyAt bufB .s2 8).mem.read (1 + 2) = some 0x0F ∧
    (busyAt bufB .s2 8).mem.read (1 + 3) = some 0x81 := by decide

/-- Two buffers that agree on bytes 0 to 1 only, and a read of 9 bits. -/
theorem witness_ReadUsesOnlyItsBytes :
    (∀ a < 2, (busyAt bufB .s2 0).off / 8 ≤ a → a ≤ ((busyAt bufB .s2 0).off + 9 - 1) / 8 →
      (Memory.ofBytes 0 [0xA5, 0x3C]).read a = (busyAt bufB .s2 0).mem.read a) ∧ ((busyAt bufB .s2 0).off + 9 - 1) / 8 < 2 ∧
    nextIs (exec (.readBits 9) (busyAt bufB .s2 0)) (fun _ => true) = true := by decide

/-- Its clause about a fault: two bytes, of which the second was never placed. -/
theorem witness_AbsentByteStopsRead_ReadUsesOnlyItsBytes :
    let s := { busyAt [0xA5] .s2 0 with len := 2 }
    1 ≤ 16 ∧ 16 ≤ 32 ∧ s.off + 16 ≤ 8 * s.len.toNat ∧ s.off / 8 ≤ 1 ∧ 1 ≤ (s.off + 16 - 1) / 8 ∧ s.mem.read 1 = none ∧
      (∀ b < 1, s.off / 8 ≤ b → (s.mem.read b).isSome = true) ∧
      faultIs (exec (.readBits 16) s) (.byteAbsent 1) = true := by decide

/-- A code of class 0 and one of class 30: for the statements about UE and for the UE rows. -/
theorem witness_UeFourCases_code :
    (busyAt [0x80] .s11 0).Present ∧ (busyAt [0x80] .s11 0).CodeAt 0 ∧
    (busyAt [0, 0, 0, 3, 0xFF, 0xFF, 0xFF, 0xF8] .s11 0).Present ∧
    (busyAt [0, 0, 0, 3, 0xFF, 0xFF, 0xFF, 0xF8] .s11 0).CodeAt 30 := by decide

/-- The code ends where the buffer ends. -/
theorem witness_UeFourCases_code_at_end : (busyAt [0x03] .s11 5).Present ∧ (busyAt [0x03] .s11 5).CodeAt 1 := by decide

/-- The smallest and the largest class (V7). -/
theorem witness_UeValueRange :
    (∃ v s', ue (busyAt [0x80] .s11 0) = .value v s' ∧ s'.lz = 0 ∧ v = 0) ∧
    (∃ v s', ue (busyAt [0, 0, 0, 3, 0xFF, 0xFF, 0xFF, 0xF8] .s11 0) = .value v s' ∧ s'.lz = 30 ∧ v = 2147483646) :=
  ⟨⟨_, _, rfl, by decide, by decide⟩, _, _, rfl, by decide, by decide⟩

theorem witness_UeTooLongAtThe31stZero :
    (busyAt [0x80, 0, 0, 0] .s11 1).off + 31 ≤ 8 * (busyAt [0x80, 0, 0, 0] .s11 1).len.toNat ∧
    ∀ i < 31, bitAt (busyAt [0x80, 0, 0, 0] .s11 1).mem ((busyAt [0x80, 0, 0, 0] .s11 1).off + i) = some 0 := by decide

/-- The other three cases, at `z = 0`, `z = 30` and `k = 1`, `k = 30`: for the four cases and for the UE rows. -/
theorem witness_UeFourCases :
    (busyAt [0x80, 0, 0, 0] .s11 1).Present ∧ (busyAt [0x80, 0, 0, 0] .s11 1).TooLongAt ∧
    (busyAt [] .s11 0).Present ∧ (busyAt [] .s11 0).CountUnderrunAt 0 ∧ (busyAt [0x80, 0, 0, 0] .s11 2).CountUnderrunAt 30 ∧
    (busyAt [0x01] .s11 6).Present ∧ (busyAt [0x01] .s11 6).SuffixUnderrunAt 1 ∧
    (busyAt [0, 0, 0, 2] .s11 0).Present ∧ (busyAt [0, 0, 0, 2] .s11 0).SuffixUnderrunAt 30 := by decide

theorem witness_UeRoundTrip :
    (2147483646 ≤ 2 ^ 31 - 2 ∧ (busyAt [0, 0, 0, 3, 0xFF, 0xFF, 0xFF, 0xF8] .s11 0).Present ∧
      (busyAt [0, 0, 0, 3, 0xFF, 0xFF, 0xFF, 0xF8] .s11 0).off + (encodeUe 2147483646).length ≤ 64 ∧
      streamBits (busyAt [0, 0, 0, 3, 0xFF, 0xFF, 0xFF, 0xF8] .s11 0).mem 0 (encodeUe 2147483646).length =
        encodeUe 2147483646) ∧
    ((busyAt [0xA6] .s11 4).Present ∧ streamBits (busyAt [0xA6] .s11 4).mem 4 (encodeUe 2).length = encodeUe 2) := by decide

theorem witness_UeAgreesWithFormatDecoder :
    (busyAt [0xA6] .s11 8).Present ∧ (busyAt [0xA6] .s11 8).off ≤ 8 * (busyAt [0xA6] .s11 8).len.toNat := by decide

/-- S1 with `NAL_SKIP_BITS = 32`: ending at the end of the buffer, and one byte short (V11). -/
theorem witness_SkippingSteps :
    (busyAt [0, 0, 0, 0] .s1 0).off + (busyAt [0, 0, 0, 0] .s1 0).cfg.nalSkipBits.val = 8 * (busyAt [0, 0, 0, 0] .s1 0).len.toNat ∧
    8 * (busyAt [0, 0, 0] .s1 0).len.toNat < (busyAt [0, 0, 0] .s1 0).off + (busyAt [0, 0, 0] .s1 0).cfg.nalSkipBits.val ∧
    (busyAt (bufP1.take 10) .s8 48).off + 32 = 8 * (busyAt (bufP1.take 10) .s8 48).len.toNat ∧
    8 * (busyAt (bufP1.take 11) .s9 80).len.toNat < (busyAt (bufP1.take 11) .s9 80).off + 16 := by decide

/-- The reading rows: S2 to S7, S10, S13, S16 on buffers that end with their element, and one bit late. -/
theorem witness_DiscardingReads_ProfileReads :
    (busyAt bufB .s2 36).Present ∧ (busyAt bufB .s2 36).off + 4 = 8 * (busyAt bufB .s2 36).len.toNat ∧
    8 * (busyAt bufB .s2 37).len.toNat < (busyAt bufB .s2 37).off + 4 ∧
    (busyAt bufB .s3 37).off + 3 = 8 * (busyAt bufB .s3 37).len.toNat ∧
    8 * (busyAt bufB .s3 38).len.toNat < (busyAt bufB .s3 38).off + 3 ∧
    (busyAt bufB .s5 38).off + 2 = 8 * (busyAt bufB .s5 38).len.toNat ∧
    8 * (busyAt bufB .s5 39).len.toNat < (busyAt bufB .s5 39).off + 2 ∧
    (busyAt bufB .s7 35).off + 5 = 8 * (busyAt bufB .s7 35).len.toNat ∧
    8 * (busyAt bufB .s7 36).len.toNat < (busyAt bufB .s7 36).off + 5 ∧
    (busyAt bufB .s10 32).off + 8 = 8 * (busyAt bufB .s10 32).len.toNat ∧
    8 * (busyAt bufB .s10 33).len.toNat < (busyAt bufB .s10 33).off + 8 := by decide

/-- The UE rows in P2: S12 meets class 2, S14 class 10, S18 class 3, S21 class 1. -/
theorem witness_ChromaBranch_PictureSizeSteps_ConformanceWindowSteps_BitDepthSteps :
    (busyAt bufP2 .s12 105).Present ∧ (busyAt bufP2 .s11 104).CodeAt 0 ∧ (busyAt bufP2 .s12 105).CodeAt 2 ∧
    (busyAt bufP2 .s14 111).CodeAt 10 ∧ (busyAt bufP2 .s15 132).CodeAt 10 ∧ (busyAt bufP2 .s17 154).CodeAt 0 ∧
    (busyAt bufP2 .s18 155).CodeAt 3 ∧ (busyAt bufP2 .s19 162).CodeAt 0 ∧ (busyAt bufP2 .s20 163).CodeAt 2 ∧
    (busyAt bufP2 .s21 168).CodeAt 1 ∧ (busyAt bufP2 .s22 171).CodeAt 1 ∧
    (busyAt bufP2 .s13 110).off + 1 ≤ 8 * (busyAt bufP2 .s13 110).len.toNat ∧
    (busyAt bufP2 .s16 153).off + 1 ≤ 8 * (busyAt bufP2 .s16 153).len.toNat ∧
    8 * (busyAt bufP2 .s16 176).len.toNat < (busyAt bufP2 .s16 176).off + 1 := by decide

theorem witness_AssembleWritesTheRecord :
    (∃ s : State, s.x = windowFields 1920 1080 0 8 0 4 ∧ s.x.cwf = some 1) ∧ (∃ s : State, s.x = plainFields ∧ s.x.cwf = some 0) :=
  ⟨⟨busyWith bufP2 .s23 174 (windowFields 1920 1080 0 8 0 4), rfl, rfl⟩, busyWith bufP1 .s23 153 plainFields, rfl, rfl⟩

/-- `ValueInv` with the largest values there are. -/
theorem valueInv_largest :
    ValueInv (busyWith bufP2 .s23 174
      (windowFields 2147483646 2147483646 2147483646 2147483646 1073741823 1073741823)) := by
  intro r v h
  cases r <;> cases h <;> decide

/-- The sum of the offsets above the width, and equal to the height. -/
theorem witness_AssembleArithmetic :
    let s := busyWith bufP2 .s23 174 (windowFields 2147483646 2147483646 2147483646 2147483646 1073741823 1073741823)
    ValueInv s ∧ (∃ t r, exec .s23Assemble s = .next t ∧ t.out = some r) ∧ fieldValue s.x .picw = some 2147483646 ∧
      fieldValue s.x .pich = some 2147483646 ∧ fieldValue s.x .bdlm8 = some 2 ∧ fieldValue s.x .bdcm8 = some 2 ∧
      fieldValue s.x .cwf = some 1 ∧ fieldValue s.x .cleft = some 2147483646 ∧ fieldValue s.x .cright = some 2147483646 ∧
      fieldValue s.x .ctop = some 1073741823 ∧ fieldValue s.x .cbot = some 1073741823 :=
  ⟨valueInv_largest, ⟨_, _, rfl, rfl⟩, rfl, rfl, rfl, rfl, rfl, rfl, rfl, rfl, rfl⟩

/-- A register that is always read, and one of the window registers with the flag set. -/
theorem witness_AssembleStopsOnNoValue :
    faultIs (exec .s23Assemble (busyWith bufP1 .s23 153 Fields.empty)) (.noValue .cwf) = true ∧
    fieldValue Fields.empty .picw = none ∧ (inWindow .picw = true → Fields.empty.cwf = some 1) ∧
    (let f := { windowFields 4 4 0 0 0 0 with cbot := none }
     fieldValue f .cbot = none ∧ f.cwf = some 1 ∧
       faultIs (exec .s23Assemble (busyWith bufP2 .s23 174 f)) (.noValue .cbot) = true) := by decide

/-- A next state of each kind: a step that goes on, the one that completes, one that raises. -/
theorem witness_SequencerTransfers :
    (busyAt bufP2 .s12 105).host = [] ∧ (busyAt bufP2 .s12 105).phase = .busy ∧
    nextIs (step (busyAt bufP2 .s12 105)) (at' .s13 110) = true ∧
    nextIs (step (busyWith bufP1 .s23 153 plainFields)) (fun t => decide (t.phase = .done)) = true ∧
    nextIs (step (busyAt [] .s11 0)) (failed .bufferUnderrun .s11 0) = true := by decide

theorem witness_AbortLeaves :
    (isStepRow .s2U4 = true ∧ nextIs (exec .s2U4 (busyAt [] .s2 0)) (failed .bufferUnderrun .s2 0) = true) ∧
    (isStepRow .s22Bdcm8 = true ∧
      nextIs (exec .s22Bdcm8 (busyAt [0, 0, 0, 0] .s22 0)) (failed .codeTooLong .s22 31) = true) := by decide

theorem witness_AbortLeaves_phase : PhaseInv (busyAt [] .s2 0) ∧ (busyAt [] .s2 0).phase = .busy := by
  refine ⟨⟨by decide, rfl, rfl⟩, rfl⟩

theorem witness_StepRowFrame_OperationFrame_AssembleFrame :
    (isStepRow .s18Cright = true ∧ Instr.s18Cright ≠ .s23Assemble ∧
      nextIs (exec .s18Cright (busyAt bufP2 .s18 155)) (fun _ => true) = true) ∧
    nextIs (exec .ue (busyAt bufP2 .s18 155)) (fun _ => true) = true ∧
    nextIs (exec (.readBits 32) (busyAt bufP2 .s18 0)) (fun _ => true) = true ∧
    nextIs (exec (.skip 0) (busyAt [] .s18 0)) (fun _ => true) = true ∧
    nextIs (exec .s23Assemble (busyWith bufP1 .s23 153 plainFields)) (fun _ => true) = true := by decide

theorem witness_BufferOnlyChangedByHost_CursorNeverGoesBack :
    (busyAt bufP2 .s18 155).host = [] ∧ nextIs (step (busyAt bufP2 .s18 155)) (fun _ => true) = true ∧
    ∀ bytes rest, (busyAt bufP2 .s18 155).host ≠ .place bytes :: rest := by
  refine ⟨rfl, by decide, fun _ _ h => ?_⟩
  cases h

/-- P2 at S13: the fields its steps have written. -/
def atS13 : State :=
  busyWith bufP2 .s13 110 { Fields.empty with pspace := some 0, tier := some 1, pidc := some 1, level := some 120, chroma := some 3 }

/-- The invariant holds of a running parse. -/
theorem inv_atS13 : Inv atS13 := by
  refine ⟨⟨by decide, rfl, rfl⟩, ?_, ⟨fun _ => rfl, fun h => absurd h (by decide)⟩, ⟨by decide, by decide⟩, ?_, rfl⟩
  · intro r; cases r <;> decide
  · intro r v h; cases r <;> cases h <;> decide

/-- P2 at S22, the last step that reads. -/
def atS22 : State := busyWith bufP2 .s22 171 { windowFields 1920 1080 0 8 0 4 with bdcm8 := none }

theorem inv_atS22 : Inv atS22 := by
  refine ⟨⟨by decide, rfl, rfl⟩, ?_, ⟨fun h => (by cases h), fun _ h => absurd h (by decide)⟩, ⟨by decide, by decide⟩, ?_, rfl⟩
  · intro r; cases r <;> decide
  · intro r v h; cases r <;> cases h <;> decide

/-- P1 at S23, without a window. -/
def atS23 : State := busyWith bufP1 .s23 153 plainFields

theorem inv_atS23 : Inv atS23 := by
  refine ⟨⟨by decide, rfl, rfl⟩, ?_, ⟨fun h => (by cases h), fun _ h => absurd h (by decide)⟩, ⟨by decide, by decide⟩, ?_, rfl⟩
  · intro r; cases r <;> decide
  · intro r v h; cases r <;> cases h <;> decide

theorem witness_EveryStepKeepsInvariant :
    (Inv atS13 ∧ nextIs (step atS13) (at' .s14 111) = true) ∧ (Inv atS22 ∧ nextIs (step atS22) (at' .s23 174) = true) ∧
    (Inv atS23 ∧ nextIs (step atS23) (fun t => decide (t.phase = .done)) = true) :=
  ⟨⟨inv_atS13, by decide⟩, ⟨inv_atS22, by decide⟩, inv_atS23, by decide⟩

theorem witness_EveryStepKeepsPrefixOffsets :
    PrefixInv (busyAt bufP1 .s10 96) ∧ nextIs (step (busyAt bufP1 .s10 96)) (at' .s11 104) = true := by
  refine ⟨fun _ p h => ?_, by decide⟩
  cases h
  rfl

theorem witness_EveryStepKeepsConsumptionBounds :
    ConsumptionInv atS22 ∧ nextIs (step atS22) (fun _ => true) = true ∧
    ConsumptionInv (busyAt [] .s1 0) ∧ nextIs (step (busyAt [] .s1 0)) (failed .bufferUnderrun .s1 0) = true := by
  refine ⟨⟨fun _ => by decide, fun h => (by cases h), fun h => (by cases h)⟩, by decide,
    ⟨fun _ => by decide, fun h => (by cases h), fun h => (by cases h)⟩, by decide⟩

/-- A running parse of which the last byte was never placed. -/
def absentByte : State := { atS22 with mem := Memory.ofBytes 0 (bufP2.take 21) }

theorem inv_absentByte : Inv absentByte := ⟨inv_atS22.phase, inv_atS22.fields, inv_atS22.branch, inv_atS22.cursor, inv_atS22.value, rfl⟩

/-- Each of the three stops, in a state that meets the invariant. -/
theorem witness_OnlyTheHostCausesStops :
    (Inv absentByte ∧ faultIs (step absentByte) (.byteAbsent 21) = true) ∧
    (∃ s, Inv s ∧ refusedIs (step s) (.lenTooLarge 536870912) = true) ∧
    (∃ s, Inv s ∧ refusedIs (step s) .bufferChanged = true) := by
  refine ⟨⟨inv_absentByte, by decide⟩, ⟨{ State.reset with host := [.clock false true 536870912] }, ?_, by decide⟩,
    { atS22 with host := [.place []] }, ?_, by decide⟩
  · refine ⟨⟨rfl, rfl, rfl⟩, ?_, ⟨fun h => (by cases h), fun h => absurd h (by decide)⟩, ⟨by decide, by decide⟩, ?_, rfl⟩
    · intro r; cases r <;> decide
    · intro r v h; cases r <;> cases h
  · exact ⟨inv_atS22.phase, inv_atS22.fields, inv_atS22.branch, inv_atS22.cursor, inv_atS22.value, rfl⟩

theorem witness_EveryParseEnds : Inv atS13 ∧ atS13.host = [] ∧ atS13.phase = .busy ∧ atS13.Present :=
  ⟨inv_atS13, rfl, rfl, by decide⟩

/-- An instance that failed, given P1 and the START of P6. -/
def aboutToParse (bytes : List Byte) : State :=
  { busyAt bytes .s11 135 with
    phase := .error
    err := some .codeTooLong
    host := [.clock false true (BitVec.ofNat 32 bytes.length)] }

theorem witness_StepsRefineTheParse :
    (aboutToParse bufP1).phase ≠ .busy ∧ 8 * (20 : Word).toNat < 2 ^ 32 ∧ (aboutToParse bufP1).host = [.clock false true 20] := by
  decide

/-- A fresh instance and one that failed, and their first step. -/
theorem witness_ParseForgetsThePast :
    let s1 := { State.reset with mem := Memory.ofBytes 0 bufP1, host := [.clock false true 20] }
    let s2 := aboutToParse bufP1
    s1.phase ≠ .busy ∧ s2.phase ≠ .busy ∧ 8 * (20 : Word).toNat < 2 ^ 32 ∧ s1.host = [.clock false true 20] ∧
      s2.host = [.clock false true 20] ∧ s1.cfg = s2.cfg ∧ s1.mem = s2.mem ∧
      nextIs (runSteps (0 + 1) s1) (fun _ => true) = true := by decide

/-- P2's S22 and S23, on a buffer that differs in its last two bits and is longer. -/
theorem witness_BitsAfterTheCursorDoNotMatter :
    atS22.host = [] ∧ nextIs (runSteps 2 atS22) (fun t => decide (t.phase ≠ .error ∧ t.off = 174 ∧ t.off ≤ 8 * 23)) = true ∧
    ∀ j, atS22.off ≤ j → j < 174 → bitAt (Memory.ofBytes 0 (bufP2.take 21 ++ [0x6C, 0xFF])) j = bitAt atS22.mem j := by
  refine ⟨rfl, by decide, fun j h1 h2 => ?_⟩
  have h1 : 171 ≤ j := h1
  have h : j = 171 ∨ j = 172 ∨ j = 173 := by omega
  rcases h with rfl | rfl | rfl <;> decide

/-- 12 bytes at the default, no byte at all with no skip, and 13 bytes. -/
theorem witness_TruncatedFixedPartFails :
    (let s := aboutToParse (bufP1.take 12)
     s.phase ≠ .busy ∧ s.host = [.clock false true 12] ∧ (∀ a < (12 : Word).toNat, (s.mem.read a).isSome = true) ∧
       8 * (12 : Word).toNat < s.cfg.nalSkipBits.val + 72 ∧ s.cfg = Config.default) ∧
    (let s := { aboutToParse [] with cfg := ⟨0⟩ }
     s.host = [.clock false true 0] ∧ 8 * (0 : Word).toNat < s.cfg.nalSkipBits.val + 72) ∧
    (let s := aboutToParse (bufP1.take 13)
     s.host = [.clock false true 13] ∧ (∀ a < (13 : Word).toNat, (s.mem.read a).isSome = true) ∧ s.cfg = Config.default) := by
  decide

theorem witness_HostSeesRecordOnlyInDone :
    State.reset.phase = .idle ∧ State.reset.err = none ∧ atS22.phase = .busy ∧ (aboutToParse bufP1).phase = .error ∧
    (aboutToParse bufP1).err = some .codeTooLong ∧
    nextIs (step atS23) (fun t => decide (t.phase = .done)) = true ∧
    nextIs (step (busyAt [] .s1 0)) (fun t => decide (t.err = some .bufferUnderrun)) = true := by decide

end Sys2Proof.Tests
end

/-! # The formats: a value written is the value read back (30_encoding.md R71 to R76) -/

namespace Sys2Proof

/-- Reading back the `n` bits that `encodeU` writes appends the low `n` bits of the value to what was read before. -/
theorem decodeU_encodeU (n acc v : Nat) (rest : List Bool) :
    decodeU n acc (encodeU n v ++ rest) = .ok (acc * 2 ^ n + v % 2 ^ n, rest) := by
  induction n generalizing acc with
  | zero => simp [decodeU, encodeU, Nat.mod_one]
  | succ n ih =>
    have hbit : v % 2 ^ (n + 1) = v % 2 ^ n + 2 ^ n * (v.testBit n).toNat := by
      rw [Nat.mod_pow_succ, Nat.toNat_testBit]
    have hpow : 2 * acc * 2 ^ n = acc * 2 ^ (n + 1) := by ring
    simp only [encodeU, List.cons_append, decodeU, ih, hbit, Nat.add_mul, hpow]
    congr 2
    ring

/-- The count of zeros up to the marker, as long as it stays below the limit. -/
theorem decodeZeros_replicate {left k : Nat} (m : Nat) (h : m < left) (bs : List Bool) :
    decodeZeros left k (List.replicate m false ++ true :: bs) = .ok (k + m, bs) := by
  induction m generalizing left k with
  | zero =>
    obtain ⟨left, rfl⟩ : ∃ l, left = l + 1 := ⟨left - 1, by omega⟩
    rfl
  | succ m ih =>
    obtain ⟨left, rfl⟩ : ∃ l, left = l + 1 := ⟨left - 1, by omega⟩
    rw [List.replicate_succ, List.cons_append, decodeZeros, ih (by omega)]
    congr 2
    omega

/-- The code of `x` in class `k`: `k` zeros, the marker, and the low `k` bits of `x + 1`. -/
theorem encodeUe_eq {x k : Nat} (hk : Nat.log2 (x + 1) = k) :
    encodeUe x = List.replicate k false ++ true :: encodeU k (x + 1) := by
  have hmark : (x + 1).testBit k = true := hk ▸ Nat.testBit_log2 (by omega)
  rw [encodeUe, hk, encodeU, hmark]

theorem decodeUe_encodeUe {x : Nat} (hx : x ≤ 2 ^ 31 - 2) (rest : List Bool) :
    decodeUe (encodeUe x ++ rest) = .ok (x, rest) := by
  obtain ⟨k, hk⟩ : ∃ k, Nat.log2 (x + 1) = k := ⟨_, rfl⟩
  have hclass : 2 ^ k ≤ x + 1 ∧ x + 1 < 2 ^ (k + 1) := (Nat.log2_eq_iff (by omega)).mp hk
  have hk30 : k < ueMaxLz + 1 :=
    (Nat.pow_lt_pow_iff_right (a := 2) (by omega)).mp (show 2 ^ k < 2 ^ 31 by omega)
  have hlow : (x + 1) % 2 ^ k = x + 1 - 2 ^ k := by
    rw [Nat.mod_eq_sub_mod hclass.1, Nat.mod_eq_of_lt (by omega)]
  rw [encodeUe_eq hk, List.append_assoc, List.cons_append, decodeUe, decodeZeros_replicate k hk30]
  simp only [Nat.zero_add, decodeU_encodeU, hlow, Nat.zero_mul]
  congr 2
  omega

/-- An element of any format with a value the format carries, whatever bits follow. -/
theorem decodeElement_encodeElement {f : Format} {v : Nat} (hv : f.valueOk v = true) (rest : List Bool) :
    decodeElement f (encodeElement f v ++ rest) = .ok (v, rest) := by
  cases f with
  | empty =>
    obtain rfl : v = 0 := of_decide_eq_true hv
    rfl
  | x n =>
    obtain rfl : v = 0 := of_decide_eq_true hv
    exact Laws.leastElement_of_format (.x n) rest
  | u n =>
    have hlt : v < 2 ^ n := of_decide_eq_true hv
    rw [decodeElement, encodeElement, decodeU_encodeU, Nat.mod_eq_of_lt hlt, Nat.zero_mul, Nat.zero_add]
  | ue => exact decodeUe_encodeUe (of_decide_eq_true hv) rest

/-! # Selecting a row (10_state.md R25, R35; 30_encoding.md R84) -/

/-- The signals a row is given select that row: the laws of the single rows, put together. -/
theorem selected_statement (i : Instr) : Laws.Selected.Statement i :=
  match i with
  | .start len => Laws.Selected.start len
  | .readBits n => Laws.Selected.readBits n
  | .skip n => Laws.Selected.skip n
  | .ue => Laws.Selected.ue
  | .s1SkipN => Laws.Selected.s1SkipN
  | .s2U4 => Laws.Selected.s2U4
  | .s3U3 => Laws.Selected.s3U3
  | .s4U1 => Laws.Selected.s4U1
  | .s5Pspace => Laws.Selected.s5Pspace
  | .s6Tier => Laws.Selected.s6Tier
  | .s7Pidc => Laws.Selected.s7Pidc
  | .s8Skip32 => Laws.Selected.s8Skip32
  | .s9Skip16 => Laws.Selected.s9Skip16
  | .s10Level => Laws.Selected.s10Level
  | .s11Ue => Laws.Selected.s11Ue
  | .s12Chroma => Laws.Selected.s12Chroma
  | .s13U1 => Laws.Selected.s13U1
  | .s14Picw => Laws.Selected.s14Picw
  | .s15Pich => Laws.Selected.s15Pich
  | .s16Cwf => Laws.Selected.s16Cwf
  | .s17Cleft => Laws.Selected.s17Cleft
  | .s18Cright => Laws.Selected.s18Cright
  | .s19Ctop => Laws.Selected.s19Ctop
  | .s20Cbot => Laws.Selected.s20Cbot
  | .s21Bdlm8 => Laws.Selected.s21Bdlm8
  | .s22Bdcm8 => Laws.Selected.s22Bdcm8
  | .s23Assemble => Laws.Selected.s23Assemble

theorem encodeSelector_eq_none_iff (i : Instr) :
    encodeSelector i = none ↔ ((∃ n, i = .readBits n) ∨ (∃ n, i = .skip n) ∨ i = .ue) := by
  cases i <;> simp [encodeSelector, stepCode]

end Sys2Proof

/-! # Field registers (10_state.md R21, R22) -/

namespace Sys2Proof.Machine

open Sys2Proof

theorem fieldValue_empty (r : FieldReg) : fieldValue Fields.empty r = none := by cases r <;> rfl

/-- A register holds no more than the word written to it: a narrow one keeps the low bits. -/
theorem fieldValue_write_self (f : Fields) (r : FieldReg) (v : Word) :
    ∃ w, fieldValue (f.write r v) r = some w ∧ w ≤ v.toNat := by
  have low : ∀ n, (v.setWidth n).toNat ≤ v.toNat := fun n => by
    rw [BitVec.toNat_setWidth]
    exact Nat.mod_le _ _
  cases r with
  | pspace => exact ⟨_, rfl, low 2⟩
  | tier => exact ⟨_, rfl, low 1⟩
  | pidc => exact ⟨_, rfl, low 5⟩
  | level => exact ⟨_, rfl, low 8⟩
  | cwf => exact ⟨_, rfl, low 1⟩
  | chroma | picw | pich | cleft | cright | ctop | cbot | bdlm8 | bdcm8 => exact ⟨_, rfl, le_rfl⟩

theorem fieldValue_write_of_ne {f : Fields} {r q : FieldReg} (v : Word) (h : r ≠ q) :
    fieldValue (f.write r v) q = fieldValue f q := by
  cases r <;> cases q <;> first | rfl | exact absurd rfl h

/-- `fieldValue` forgets nothing of the one-bit register that the window's steps test. -/
theorem cwf_eq_of_fieldValue_eq {f g : Fields} (h : fieldValue f .cwf = fieldValue g .cwf) : f.cwf = g.cwf :=
  Option.map_injective (fun _ _ => BitVec.eq_of_toNat_eq) h

theorem one_lt_writerOf (r : FieldReg) : 1 < writerOf r := by cases r <;> decide

/-- The offset registers are those that S17 to S20 write. -/
theorem inWindow_iff (r : FieldReg) : inWindow r = true ↔ 17 ≤ writerOf r ∧ writerOf r ≤ 20 := by
  cases r <;> decide

/-- S13 writes no register. -/
theorem writerOf_ne_thirteen (r : FieldReg) : writerOf r ≠ 13 := by cases r <;> decide

theorem State.writeDest_value_self {s : State} {d : Option FieldReg} {r : FieldReg} (h : d = some r) (v : Word) :
    ∃ w, fieldValue (s.writeDest d v).x r = some w ∧ w ≤ v.toNat := by
  subst h
  exact fieldValue_write_self s.x r v

theorem State.writeDest_value_of_ne {s : State} {d : Option FieldReg} {r : FieldReg} (h : d ≠ some r) (v : Word) :
    fieldValue (s.writeDest d v).x r = fieldValue s.x r := by
  cases d with
  | none => rfl
  | some q => exact fieldValue_write_of_ne v fun e => h (by rw [e])

/-! # What a row S1 to S22 can do (42_sps_parser.md R142, R169) -/

/-- Where a row that does not raise goes, read off the state its destination is written in (R169). Rows that are no step
of S1 to S22 go nowhere. -/
def follow : Instr → State → StepName
  | .s1SkipN, _ => .s2
  | .s2U4, _ => .s3
  | .s3U3, _ => .s4
  | .s4U1, _ => .s5
  | .s5Pspace, _ => .s6
  | .s6Tier, _ => .s7
  | .s7Pidc, _ => .s8
  | .s8Skip32, _ => .s9
  | .s9Skip16, _ => .s10
  | .s10Level, _ => .s11
  | .s11Ue, _ => .s12
  | .s12Chroma, s => s.afterChroma
  | .s13U1, _ => .s14
  | .s14Picw, _ => .s15
  | .s15Pich, _ => .s16
  | .s16Cwf, s => s.afterCwf
  | .s17Cleft, _ => .s18
  | .s18Cright, _ => .s19
  | .s19Ctop, _ => .s20
  | .s20Cbot, _ => .s21
  | .s21Bdlm8, _ => .s22
  | .s22Bdcm8, _ => .s23
  | .start _, s | .readBits _, s | .skip _, s | .ue, s | .s23Assemble, s => s.step

/-- `exec_kind` with the row's own successor, and with the width of the fixed-width elements: at most 8 bits. -/
theorem exec_kind_follow (i : Instr) (s : State) (h : isStepRow i = true) (h23 : i ≠ .s23Assemble) :
    (∃ n ≤ 8, i.format s.cfg.nalSkipBits.val = .u n ∧ exec i s = performU n (destOf i) (follow i) s) ∨
    (∃ n nx, destOf i = none ∧ (∀ u, follow i u = nx) ∧ exec i s = performSkip n nx s) ∨
    (i.format s.cfg.nalSkipBits.val = .ue ∧ exec i s = performUe (destOf i) (follow i) s) := by
  cases i with
  | start | readBits | skip | ue => cases h
  | s23Assemble => exact absurd rfl h23
  | s1SkipN | s8Skip32 | s9Skip16 => exact .inr (.inl ⟨_, _, rfl, fun _ => rfl, rfl⟩)
  | s2U4 | s3U3 | s4U1 | s5Pspace | s6Tier | s7Pidc | s10Level | s13U1 | s16Cwf =>
    exact .inl ⟨_, by decide, rfl, rfl⟩
  | s11Ue | s12Chroma | s14Picw | s15Pich | s17Cleft | s18Cright | s19Ctop | s20Cbot | s21Bdlm8 | s22Bdcm8 =>
    exact .inr (.inr ⟨rfl, rfl⟩)

/-- The row has obtained its element: the cursor stands at `p`, `LZ` is `l`, the destination holds `v`, and the row's
successor is next. -/
def State.advance (s : State) (i : Instr) (p : Nat) (l : BitVec 5) (v : Word) : State :=
  (((s.setOff p).setLz l).writeDest (destOf i) v).goto (follow i (((s.setOff p).setLz l).writeDest (destOf i) v))

/-- A row S1 to S22 advances, the cursor inside the buffer and the value no larger than a ue(v) value, or it aborts with
the cursor no further than the end of the buffer; only a ue(v) row moves `LZ`. -/
theorem exec_stepRow_next {i : Instr} {s t : State} (h : isStepRow i = true) (h23 : i ≠ .s23Assemble)
    (he : exec i s = .next t) :
    ∃ p l, s.off ≤ p ∧ (i.format s.cfg.nalSkipBits.val ≠ .ue → l = s.lz) ∧
      ((∃ v : Word, v.toNat ≤ 2 ^ 31 - 2 ∧ p ≤ 8 * s.len.toNat ∧ t = s.advance i p l v) ∨
       (∃ e, (s.off ≤ 8 * s.len.toNat → p ≤ 8 * s.len.toNat) ∧ t = ((s.setOff p).setLz l).abort e)) := by
  rcases exec_kind_follow i s h h23 with ⟨n, hn, _, hx⟩ | ⟨n, nx, hd, hnx, hx⟩ | ⟨hf, hx⟩ <;> rw [hx] at he
  · rcases performU_next he with ⟨v, hr, hl, rfl⟩ | ⟨_, rfl⟩
    · obtain ⟨_, _, _, _, _, _, hv⟩ := readBits_value hr
      have h8 : 2 ^ n ≤ 2 ^ 8 := Nat.pow_le_pow_right (by omega) hn
      exact ⟨s.off + n, s.lz, by omega, fun _ => rfl, .inl ⟨v, by omega, hl, rfl⟩⟩
    · exact ⟨s.off, s.lz, le_rfl, fun _ => rfl, .inr ⟨_, id, rfl⟩⟩
  · rcases performSkip_next he with ⟨hl, rfl⟩ | ⟨_, rfl⟩
    · refine ⟨s.off + n, s.lz, by omega, fun _ => rfl, .inl ⟨0, by decide, hl, ?_⟩⟩
      rw [State.advance, hnx, hd]
      rfl
    · exact ⟨s.off, s.lz, le_rfl, fun _ => rfl, .inr ⟨_, id, rfl⟩⟩
  · rcases performUe_next he with ⟨k, v, hc, hv, _, rfl⟩ | ⟨e, p, k, _, hp, hpl, _, rfl⟩
    · obtain ⟨hk, _, _, hl⟩ := hc
      obtain ⟨_, _, hmax⟩ := s.codeValue_bounds hk
      exact ⟨s.off + 2 * k + 1, _, by omega, (absurd hf ·), .inl ⟨v, by omega, hl, rfl⟩⟩
    · exact ⟨p, _, hp, (absurd hf ·), .inr ⟨e, hpl, rfl⟩⟩

/-! ## The row that `STEP` names -/

/-- The register column of the table (10_state.md R21): the row of a step writes the registers whose writer it is. -/
theorem destOf_eq_some_iff {st : StepName} {i : Instr} (h : decodeStep st.code = .ok i) (r : FieldReg) :
    destOf i = some r ↔ writerOf r = st.index := by
  cases st <;> cases h <;> cases r <;> decide

theorem afterChroma_eq (s : State) : s.afterChroma = if s.x.chroma = some 3 then .s13 else .s14 := by
  simp [State.afterChroma, State.chromaIsThree]

theorem afterCwf_eq (s : State) : s.afterCwf = if s.x.cwf = some 1 then .s17 else .s21 := by
  simp [State.afterCwf, State.windowPresent]

/-- The transfers of R169: S12 and S16 test a register, every other row goes to the following step. -/
theorem follow_cases {st : StepName} {i : Instr} (h : decodeStep st.code = .ok i) (h23 : st ≠ .s23) (u : State) :
    (st = .s12 ∧ follow i u = if u.x.chroma = some 3 then .s13 else .s14) ∨
    (st = .s16 ∧ follow i u = if u.x.cwf = some 1 then .s17 else .s21) ∨
    (st ≠ .s12 ∧ st ≠ .s16 ∧ (follow i u).index = st.index + 1) := by
  cases st with
  | s0 => cases h
  | s23 => exact absurd rfl h23
  | s12 => cases h; exact .inl ⟨rfl, afterChroma_eq u⟩
  | s16 => cases h; exact .inr (.inl ⟨rfl, afterCwf_eq u⟩)
  | s1 | s2 | s3 | s4 | s5 | s6 | s7 | s8 | s9 | s10 | s11 | s13 | s14 | s15 | s17 | s18 | s19 | s20 | s21 | s22 =>
    cases h
    exact .inr (.inr ⟨by decide, by decide, rfl⟩)

theorem StepName.eq_s12_of_index {st : StepName} (h : st.index = 12) : st = .s12 := by
  cases st <;> first | rfl | cases h

theorem StepName.eq_s16_of_index {st : StepName} (h : st.index = 16) : st = .s16 := by
  cases st <;> first | rfl | cases h

theorem StepName.index_le_of_ne_s23 {st : StepName} (h : st ≠ .s23) : st.index ≤ 22 := by
  cases st <;> first | decide | exact absurd rfl h

/-! ## `State.advance` -/

section

variable (s : State) (i : Instr) (p : Nat) (l : BitVec 5) (v : Word)

@[simp] theorem State.advance_cfg : (s.advance i p l v).cfg = s.cfg := by simp [State.advance]
@[simp] theorem State.advance_phase : (s.advance i p l v).phase = s.phase := by simp [State.advance]
@[simp] theorem State.advance_err : (s.advance i p l v).err = s.err := by simp [State.advance]
@[simp] theorem State.advance_off : (s.advance i p l v).off = p := by simp [State.advance]
@[simp] theorem State.advance_len : (s.advance i p l v).len = s.len := by simp [State.advance]
@[simp] theorem State.advance_lz : (s.advance i p l v).lz = l := by simp [State.advance]
@[simp] theorem State.advance_out : (s.advance i p l v).out = s.out := by simp [State.advance]
@[simp] theorem State.advance_ret : (s.advance i p l v).ret = s.ret := by simp [State.advance]
@[simp] theorem State.advance_mem : (s.advance i p l v).mem = s.mem := by simp [State.advance]
@[simp] theorem State.advance_host : (s.advance i p l v).host = s.host := by simp [State.advance]
@[simp] theorem State.advance_draws : (s.advance i p l v).draws = s.draws := by simp [State.advance]

end

theorem State.advance_value_of_ne (s : State) {i : Instr} {r : FieldReg} (h : destOf i ≠ some r) (p : Nat)
    (l : BitVec 5) (v : Word) : fieldValue (s.advance i p l v).x r = fieldValue s.x r :=
  State.writeDest_value_of_ne (s := (s.setOff p).setLz l) h v

theorem State.advance_value_self (s : State) {i : Instr} {r : FieldReg} (h : destOf i = some r) (p : Nat)
    (l : BitVec 5) (v : Word) : ∃ w, fieldValue (s.advance i p l v).x r = some w ∧ w ≤ v.toNat :=
  State.writeDest_value_self (s := (s.setOff p).setLz l) h v

/-- `follow_cases`, read off the state that a row leaves. -/
theorem State.advance_step_cases {s : State} {i : Instr} (h : decodeStep s.step.code = .ok i) (h23 : s.step ≠ .s23)
    (p : Nat) (l : BitVec 5) (v : Word) :
    let t := s.advance i p l v
    (s.step = .s12 ∧ t.step = if t.x.chroma = some 3 then .s13 else .s14) ∨
    (s.step = .s16 ∧ t.step = if t.x.cwf = some 1 then .s17 else .s21) ∨
    (s.step ≠ .s12 ∧ s.step ≠ .s16 ∧ t.step.index = s.step.index + 1) :=
  follow_cases h h23 (((s.setOff p).setLz l).writeDest (destOf i) v)

/-! # The invariant (10_state.md section 9) -/

/-- Only S16 writes `CWF`. -/
theorem State.advance_cwf {s : State} {i : Instr} (h : decodeStep s.step.code = .ok i) (h16 : s.step ≠ .s16) (p : Nat)
    (l : BitVec 5) (v : Word) : (s.advance i p l v).x.cwf = s.x.cwf := by
  refine cwf_eq_of_fieldValue_eq (s.advance_value_of_ne ?_ p l v)
  rw [Ne, destOf_eq_some_iff h]
  exact fun e => h16 (StepName.eq_s16_of_index e.symm)

section

variable {s : State} {i : Instr} (h : decodeStep s.step.code = .ok i) (h23 : s.step ≠ .s23)

include h h23

/-- A register is written before the next step iff it is written by this one or before it: the only writers passed over
are those of the offsets, which S16 leaves out when `x[CWF]` is not 1. -/
theorem writerOf_lt_advance_step_iff (p : Nat) (l : BitVec 5) (v : Word) (r : FieldReg) :
    (writerOf r < (s.advance i p l v).step.index ∧ (inWindow r = true → (s.advance i p l v).x.cwf = some 1)) ↔
    (writerOf r ≤ s.step.index ∧ (inWindow r = true → (s.advance i p l v).x.cwf = some 1)) := by
  refine and_congr_left fun hwin => ?_
  have h13 := writerOf_ne_thirteen r
  rcases State.advance_step_cases h h23 p l v with ⟨hs, ht⟩ | ⟨hs, ht⟩ | ⟨_, _, ht⟩
  · rw [hs, ht]
    split <;> (simp only [StepName.index]; omega)
  · rw [hs, ht]
    split
    · simp only [StepName.index]
      omega
    · have hout : ¬ (17 ≤ writerOf r ∧ writerOf r ≤ 20) := fun e => ‹¬ _› (hwin ((inWindow_iff r).mpr e))
      simp only [StepName.index]
      omega
  · rw [ht, Nat.lt_succ_iff]

theorem FieldsInv.advance (hf : FieldsInv s) (hb : BranchInv s) (p : Nat) (l : BitVec 5) (v : Word) :
    FieldsInv (s.advance i p l v) := by
  intro r
  rw [writerOf_lt_advance_step_iff h h23]
  have hd := destOf_eq_some_iff h r
  by_cases hr : destOf i = some r
  · obtain ⟨w, hw, _⟩ := s.advance_value_self hr p l v
    have hrow := hd.mp hr
    have hwin : inWindow r = true → (s.advance i p l v).x.cwf = some 1 := by
      rw [inWindow_iff]
      rintro ⟨h17, h20⟩
      have h16 : s.step ≠ .s16 := fun e => by
        have hi : s.step.index = 16 := by rw [e]; rfl
        omega
      rw [State.advance_cwf h h16]
      exact hb.2 (by omega) (by omega)
    simp only [hw, Option.isSome_some, true_iff]
    exact ⟨hrow.le, hwin⟩
  · rw [s.advance_value_of_ne hr, hf r]
    have hne : writerOf r ≠ s.step.index := fun e => hr (hd.mpr e)
    by_cases h16 : s.step = .s16
    · have hi : s.step.index = 16 := by rw [h16]; rfl
      have hout : writerOf r ≤ 16 → ¬ inWindow r = true := fun hw e => by
        have := (inWindow_iff r).mp e
        omega
      exact ⟨fun ⟨hw, _⟩ => ⟨by omega, fun e => absurd e (hout (by omega))⟩,
        fun ⟨hw, _⟩ => ⟨by omega, fun e => absurd e (hout (by omega))⟩⟩
    · rw [State.advance_cwf h h16]
      exact and_congr_left fun _ => by omega

theorem BranchInv.advance (hb : BranchInv s) (p : Nat) (l : BitVec 5) (v : Word) : BranchInv (s.advance i p l v) := by
  rcases State.advance_step_cases h h23 p l v with ⟨_, ht⟩ | ⟨_, ht⟩ | ⟨h12, h16, ht⟩
  · split at ht
    · exact ⟨fun _ => ‹_›, fun h17 _ => absurd h17 (by rw [ht]; decide)⟩
    · exact ⟨fun e => absurd (ht.symm.trans e) (by decide), fun h17 _ => absurd h17 (by rw [ht]; decide)⟩
  · split at ht
    · exact ⟨fun e => absurd (ht.symm.trans e) (by decide), fun _ _ => ‹_›⟩
    · exact ⟨fun e => absurd (ht.symm.trans e) (by decide), fun _ h20 => absurd h20 (by rw [ht]; decide)⟩
  · refine ⟨fun e => ?_, fun h17 h20 => ?_⟩
    · rw [e] at ht
      exact absurd (StepName.eq_s12_of_index (Nat.succ.inj ht).symm) h12
    · rw [State.advance_cwf h h16]
      have : s.step.index ≠ 16 := fun e => h16 (StepName.eq_s16_of_index e)
      exact hb.2 (by omega) (by omega)

/-- A row that goes on leaves a step of S1 to S23. -/
theorem State.advance_step_pos (p : Nat) (l : BitVec 5) (v : Word) : 1 ≤ (s.advance i p l v).step.index := by
  rcases State.advance_step_cases h h23 p l v with ⟨_, ht⟩ | ⟨_, ht⟩ | ⟨_, _, ht⟩
  · rw [ht]
    split <;> decide
  · rw [ht]
    split <;> decide
  · omega

end

theorem ValueInv.advance {s : State} (hi : ValueInv s) {v : Word} (hv : v.toNat ≤ 2 ^ 31 - 2) (i : Instr) (p : Nat)
    (l : BitVec 5) : ValueInv (s.advance i p l v) := by
  intro r w hw
  by_cases hr : destOf i = some r
  · obtain ⟨w', hw', hle⟩ := s.advance_value_self hr p l v
    obtain rfl := Option.some.inj (hw.symm.trans hw')
    omega
  · exact hi r w (by rwa [s.advance_value_of_ne hr] at hw)

/-! ## The phases -/

theorem PhaseInv.of_busy {s : State} (h : PhaseInv s) (hb : s.phase = .busy) :
    1 ≤ s.step.index ∧ s.err = none ∧ s.out = none := by
  rwa [PhaseInv, hb] at h

theorem phaseInv_busy {s : State} (hb : s.phase = .busy) (hs : 1 ≤ s.step.index) (he : s.err = none)
    (ho : s.out = none) : PhaseInv s := by
  rw [PhaseInv, hb]
  exact ⟨hs, he, ho⟩

theorem phaseInv_abort {s : State} (h1 : 1 ≤ s.step.index) (h22 : s.step.index ≤ 22) (ho : s.out = none) (e : ErrKind) :
    PhaseInv (s.abort e) := ⟨h1, h22, rfl, ho⟩

theorem phaseInv_complete {s : State} {r : SpsInfo} (hs : s.step = .s23) (he : s.err = none)
    (hr : assemble s.x = .ok r) : PhaseInv (s.complete r) := ⟨hs, he, r, hr, rfl⟩

/-! ## Each transition keeps the invariant -/

/-- Taking a move off the host's list touches nothing the invariant is about. -/
theorem Inv.consume {s : State} (h : Inv s) : Inv s.consume :=
  ⟨h.phase, h.fields, h.branch, h.cursor, h.value, h.mem⟩

/-- Without a value in any field register, S0 and S1 are the steps at which the parts about the registers hold. -/
theorem inv_of_cleared {t : State} (hx : t.x = Fields.empty) (hst : t.step.index ≤ 1) (hp : PhaseInv t)
    (hc : CursorInv t) (hm : t.mem.wf = true) : Inv t where
  phase := hp
  fields r := by
    have := one_lt_writerOf r
    rw [hx, fieldValue_empty]
    constructor
    · intro h
      cases h
    · intro h
      omega
  branch := ⟨fun e => absurd hst (by rw [e]; decide), fun h => by omega⟩
  cursor := hc
  value r v h := by
    rw [hx, fieldValue_empty] at h
    cases h
  mem := hm

theorem Inv.doReset {s : State} (h : Inv s) : Inv s.doReset :=
  inv_of_cleared rfl (Nat.zero_le 1) ⟨rfl, rfl, rfl⟩ ⟨by simp, by simp⟩ h.mem

theorem Inv.accept {s : State} (h : Inv s) {len : Word} (hl : 8 * len.toNat < 2 ^ 32) : Inv (s.accept len) :=
  inv_of_cleared rfl (Nat.le_refl 1) (phaseInv_busy rfl (Nat.le_refl 1) rfl rfl) ⟨by simp, hl⟩ h.mem

theorem Inv.start {s t : State} (h : Inv s) {len : Word} (he : exec (.start len) s = .next t) : Inv t := by
  rcases exec_start_cases len s with ⟨_, hx⟩ | ⟨_, hl, hx⟩ | ⟨_, _, hx⟩ <;> rw [hx] at he <;> cases he
  · exact h
  · exact h.accept hl

theorem Inv.place {s t : State} (h : Inv s) {bytes : List Byte} (he : s.place bytes = .next t) : Inv t := by
  have hm := State.place_wf he
  unfold State.place at he
  split at he <;> cases he
  exact ⟨h.phase, h.fields, h.branch, h.cursor, h.value, hm⟩

/-- The row that `STEP` names, run in `BUSY`. -/
theorem Inv.stepRow {s t : State} {i : Instr} (h : Inv s) (hb : s.phase = .busy) (hd : decodeStep s.step.code = .ok i)
    (he : exec i s = .next t) : Inv t := by
  obtain ⟨hpos, herr, hout⟩ := h.phase.of_busy hb
  obtain ⟨hoff, hlen⟩ := h.cursor
  obtain ⟨_, hrow, h23⟩ := decodeStep_ok hd
  by_cases hs : s.step = .s23
  · rw [h23.mpr hs] at he
    obtain ⟨r, hr, rfl⟩ := execS23_next he
    exact ⟨phaseInv_complete hs herr hr, h.fields, h.branch, h.cursor, h.value, h.mem⟩
  · obtain ⟨p, l, _, _, ⟨v, hv, hp, rfl⟩ | ⟨e, hp, rfl⟩⟩ := exec_stepRow_next hrow (hs ∘ h23.mp) he
    · exact
        { phase := phaseInv_busy (by simpa using hb) (State.advance_step_pos hd hs p l v) (by simpa using herr)
            (by simpa using hout)
          fields := h.fields.advance hd hs h.branch p l v
          branch := h.branch.advance hd hs p l v
          cursor := by simpa [CursorInv] using ⟨hp, hlen⟩
          value := h.value.advance hv i p l
          mem := by simpa using h.mem }
    · have hphase : PhaseInv (((s.setOff p).setLz l).abort e) :=
        phaseInv_abort hpos (StepName.index_le_of_ne_s23 hs) hout e
      exact ⟨hphase, h.fields, h.branch, ⟨hp hoff, hlen⟩, h.value, h.mem⟩

/-! # Which row a transition runs -/

theorem step_of_select_run {s : State} {i : Instr} (h : s.select = .run i) : step s = exec i s.consume := by
  simp only [step, h]

theorem selectRow_of_busy {s : State} {i : Instr} (hb : s.phase = .busy) (hd : decodeStep s.step.code = .ok i)
    (len : Word) : s.selectRow false len = .run i := by
  simp [State.selectRow, decodeSelector, State.selector, hb, hd]

theorem select_of_host_nil {s : State} (h : s.host = []) : s.select = s.selectRow false 0 := by
  simp only [State.select, h]

/-- A clock move without `rst` puts its `start` and `len` on the ports. -/
theorem select_of_clock {s : State} {start : Bool} {len : Word} {rest : List HostMove}
    (h : s.host = .clock false start len :: rest) : s.select = s.selectRow start len := by
  simp [State.select, h]

theorem consume_of_host_cons {s : State} {m : HostMove} {rest : List HostMove} (h : s.host = m :: rest) :
    s.consume = { s with host := rest } := by
  simp only [State.consume, h, List.tail_cons]

end Sys2Proof.Machine

/-! # The obligations on the state and its decoder -/

namespace Sys2Proof.Proofs

open Sys2Proof Sys2Proof.Machine

/-- Settles O2: the selector comes back by the table of rows, the element by its format. -/
theorem decodeOfEncode : Obligations.DecodeOfEncode := by
  refine ⟨encodeSelector_eq_none_iff, ?_⟩
  intro skipN i v sel bits rest _ hv henc
  obtain ⟨sel', hsel, hpair⟩ := Option.map_eq_some_iff.mp henc
  obtain ⟨rfl, rfl⟩ := Prod.mk.inj hpair
  simp only [decode, selected_statement i sel' hsel, decodeElement_encodeElement hv rest]

/-- Settles O44, by the kind of the transition: each kind keeps the invariant. -/
theorem everyStepKeepsInvariant : Obligations.EveryStepKeepsInvariant := by
  intro s t h he
  rcases step_cases s with ⟨_, _, _, _, hx⟩ | ⟨_, _, _, hx⟩ | ⟨_, _, _, hx⟩ |
    ⟨_, ⟨_, hx⟩ | ⟨_, _, hx⟩ | ⟨hb, i, hd, hx⟩⟩ <;> rw [hx] at he
  · cases he
    exact h.consume.doReset
  · exact h.consume.place he
  · exact h.consume.start he
  · cases he
    exact h.consume
  · cases he
  · exact h.consume.stepRow hb hd he

/-- Settles O38: what `exec_stepRow_next` says a row can do changes nothing else. -/
theorem stepRowFrame : Obligations.StepRowFrame := by
  intro s t i hrow h23 he
  obtain ⟨p, l, hp, hl, ⟨v, _, _, rfl⟩ | ⟨e, _, rfl⟩⟩ := exec_stepRow_next hrow h23 he
  · have hx : ∀ r, destOf i ≠ some r → fieldValue (s.advance i p l v).x r = fieldValue s.x r :=
      fun _ hr => s.advance_value_of_ne hr p l v
    simpa using ⟨hx, hp, hl⟩
  · simpa using ⟨hp, hl⟩

/-- Settles O42: with no host move a transition is a turn of the sequencer, and no row moves `OFF` back. -/
theorem cursorNeverGoesBack : Obligations.CursorNeverGoesBack := by
  intro s t hh he
  rcases step_cases s with ⟨_, _, _, h, _⟩ | ⟨_, _, h, _⟩ | ⟨_, _, h, _⟩ |
    ⟨_, ⟨_, hx⟩ | ⟨_, _, hx⟩ | ⟨_, i, hd, hx⟩⟩
  · simp [hh] at h
  · simp [hh] at h
  · simp [hh] at h
  · rw [hx] at he
    cases he
    exact le_rfl
  · rw [hx] at he
    cases he
  · rw [hx, consume_of_host_nil hh] at he
    obtain ⟨_, hrow, _⟩ := decodeStep_ok hd
    by_cases h23 : i = .s23Assemble
    · subst h23
      obtain ⟨r, _, rfl⟩ := execS23_next he
      exact le_rfl
    · obtain ⟨p, l, hp, _, ⟨v, _, _, rfl⟩ | ⟨e, _, rfl⟩⟩ := exec_stepRow_next hrow h23 he
      · simpa using hp
      · exact hp

/-- Settles O4: in each of the three cases the decoder selects a row, and the step runs it with the move taken. -/
theorem stepRunsDecodedRow : Obligations.StepRunsDecodedRow := by
  refine ⟨?_, ?_, ?_⟩
  · intro s i hh hb hd
    rw [step_of_select_run ((select_of_host_nil hh).trans (selectRow_of_busy hb hd 0)), consume_of_host_nil hh]
  · intro s i len rest hh hb hd
    rw [step_of_select_run ((select_of_clock hh).trans (selectRow_of_busy hb hd len)), consume_of_host_cons hh]
  · intro s len rest hh
    rw [step_of_select_run ((select_of_clock hh).trans (selectRow_true s len)), consume_of_host_cons hh]

/-- Settles O6: the reset state's registers, read off, and `Fields.empty` holds no value. -/
theorem resetLeavesTheSpecsValues : Obligations.ResetLeavesTheSpecsValues :=
  ⟨rfl, rfl, rfl, rfl, rfl, fieldValue_empty, rfl⟩

/-- Settles O9: of the three ends of a START the premises leave one each. -/
theorem startAcceptedOrIgnored : Obligations.StartAcceptedOrIgnored := by
  intro s len
  rcases exec_start_cases len s with ⟨hb, hx⟩ | ⟨hb, _, hx⟩ | ⟨hb, hl, _⟩
  · exact ⟨fun h => absurd hb h, fun _ => hx⟩
  · exact ⟨fun _ _ => ⟨_, hx, rfl, rfl, rfl, rfl, rfl, fieldValue_empty, rfl, rfl, rfl, rfl, rfl⟩, fun h => absurd h hb⟩
  · exact ⟨fun _ h => absurd h (by omega), fun h => absurd h hb⟩

/-- Settles O53: each phase has its port code and each error kind its own, and the record is shown in `DONE` alone. -/
theorem hostSeesRecordOnlyInDone : Obligations.HostSeesRecordOnlyInDone := by
  intro s
  refine ⟨?_, ?_, ?_, ?_, ?_, ?_, ?_⟩ <;> intro h <;> simp [State.observe, h, Phase.code, errCode]

end Sys2Proof.Proofs

/-! # The buffer (20_memory.md R52, R53, R55; 10_state.md R33) -/

namespace Sys2Proof.Machine

theorem State.memRead_of_len_le {s : State} {addr : Nat} (h : s.len.toNat ≤ addr) :
    s.memRead addr = .error (.beyondLen addr) :=
  if_neg (Nat.not_lt.mpr h)

theorem State.memRead_of_read_eq_some {s : State} {addr : Nat} {b : Byte} (hl : addr < s.len.toNat)
    (hb : s.mem.read addr = some b) : s.memRead addr = .ok b := by
  simp only [State.memRead, if_pos hl, hb]

theorem bitAt_of_read_eq_some {m : Memory} {k : Nat} {b : Byte} (h : m.read (k / 8) = some b) :
    bitAt m k = some (b.toNat / 2 ^ (7 - k % 8) % 2) := by
  simp only [bitAt, h, Option.map_some]

/-- Placing a buffer replaces the buffer and nothing else, outside `BUSY` only. -/
theorem State.place_next {s t : State} {bytes : List Byte} (h : s.place bytes = .next t) :
    s.phase ≠ .busy ∧ t = { s with mem := Memory.ofBytes 0 bytes } := by
  unfold State.place at h
  split at h
  · cases h
  · next hb =>
    cases h
    exact ⟨hb, rfl⟩

/-- No step row stores a byte (R53), and none writes the configuration (R33). -/
theorem exec_stepRow_keeps_cfg_mem {i : Instr} {s t : State} (h : isStepRow i = true) (he : exec i s = .next t) :
    t.cfg = s.cfg ∧ t.mem = s.mem := by
  by_cases h23 : i = .s23Assemble
  · subst h23
    obtain ⟨r, _, rfl⟩ := execS23_next he
    exact ⟨rfl, rfl⟩
  · obtain ⟨p, l, _, _, ⟨v, _, _, rfl⟩ | ⟨e, _, rfl⟩⟩ := exec_stepRow_next h h23 he
    · exact ⟨s.advance_cfg i p l v, s.advance_mem i p l v⟩
    · exact ⟨rfl, rfl⟩

theorem exec_start_keeps_cfg_mem {len : Word} {s t : State} (he : exec (.start len) s = .next t) :
    t.cfg = s.cfg ∧ t.mem = s.mem := by
  rcases exec_start_cases len s with ⟨_, hx⟩ | ⟨_, _, hx⟩ | ⟨_, _, hx⟩ <;> rw [hx] at he <;> cases he
  · exact ⟨rfl, rfl⟩
  · exact ⟨rfl, rfl⟩

/-- A transition keeps the configuration and the buffer, unless it is the host's placing, which keeps the
configuration. -/
theorem step_keeps_cfg_mem {s t : State} (he : step s = .next t) :
    t.cfg = s.cfg ∧ (t.mem = s.mem ∨ ∃ bytes rest, s.host = .place bytes :: rest) := by
  rcases step_cases s with ⟨_, _, _, _, hx⟩ | ⟨bytes, rest, hh, hx⟩ | ⟨_, _, _, hx⟩ |
    ⟨_, ⟨_, hx⟩ | ⟨_, _, hx⟩ | ⟨_, i, hd, hx⟩⟩ <;> rw [hx] at he
  · cases he
    exact ⟨rfl, .inl rfl⟩
  · obtain ⟨_, rfl⟩ := State.place_next he
    exact ⟨rfl, .inr ⟨bytes, rest, hh⟩⟩
  · exact (exec_start_keeps_cfg_mem he).imp_right .inl
  · cases he
    exact ⟨rfl, .inl rfl⟩
  · cases he
  · obtain ⟨_, hrow, _⟩ := decodeStep_ok hd
    exact (exec_stepRow_keeps_cfg_mem hrow he).imp_right .inl

end Sys2Proof.Machine

/-! # The obligations on the buffer -/

namespace Sys2Proof.Proofs

open Sys2Proof Sys2Proof.Machine

/-- Settles O41: only a placing of the host can give another buffer, and it is excluded. -/
theorem bufferOnlyChangedByHost : Obligations.BufferOnlyChangedByHost := by
  intro s t he
  obtain ⟨hcfg, hmem | ⟨bytes, rest, hh⟩⟩ := step_keeps_cfg_mem he
  · exact ⟨hcfg, fun _ a => by rw [hmem]⟩
  · exact ⟨hcfg, fun hno => absurd hh (hno bytes rest)⟩

/-- Settles O11: the machine's bit read is `bitAt` wherever the byte is below `LEN` and there. -/
theorem streamBitMapping : Obligations.StreamBitMapping := by
  intro s k b hk hb
  have hlen : k / 8 < s.len.toNat := by omega
  simp only [State.bit_eq, if_pos hlen, bitAt_of_read_eq_some hb]

/-- Settles O12: the two rules of `memRead`, one for each side of `LEN`. -/
theorem memReadOnlyBelowLen : Obligations.MemReadOnlyBelowLen :=
  fun _ _ => ⟨State.memRead_of_len_le, fun _ => State.memRead_of_read_eq_some⟩

end Sys2Proof.Proofs

/-! # UE on a buffer that is there (41_expgolomb.md R123 to R126) -/

namespace Sys2Proof.Machine

open Sys2Proof

/-- Zeros end at the first one bit. -/
theorem ZerosAt.le_of_streamBit_eq_one {m : Memory} {p z k : Nat} (hz : ZerosAt m p z)
    (hone : streamBit m (p + k) = 1) : z ≤ k := by
  by_contra hlt
  have := hz k (by omega)
  omega

/-- The zeros before the marker are counted in one way only. -/
theorem zeros_before_marker_unique {m : Memory} {p j k : Nat} (hj : ZerosAt m p j) (hjm : streamBit m (p + j) = 1)
    (hk : ZerosAt m p k) (hkm : streamBit m (p + k) = 1) : j = k :=
  le_antisymm (hj.le_of_streamBit_eq_one hkm) (hk.le_of_streamBit_eq_one hjm)

/-- `ue_cases` for a cursor inside a buffer that is there: no stop, and the count that underruns ends at `8*LEN`. -/
theorem ue_cases_of_present {s : State} (hp : s.Present) (hoff : s.off ≤ 8 * s.len.toNat) :
    (∃ k, s.CodeAt k ∧ ue s = .value (BitVec.ofNat 32 (s.codeValue k)) (s.ueAt (s.off + 2 * k + 1) k)) ∨
    (s.TooLongAt ∧ ue s = .raised .codeTooLong (s.ueAt (s.off + 31) 31)) ∨
    (∃ z, s.CountUnderrunAt z ∧ ue s = .raised .bufferUnderrun (s.ueAt (s.off + z) z)) ∨
    (∃ k, s.SuffixUnderrunAt k ∧ ue s = .raised .bufferUnderrun (s.ueAt (s.off + k + 1) k)) := by
  rcases ue_cases s with ⟨k, hc, _, hx⟩ | ⟨hc, _, hx⟩ | ⟨z, hz30, hz, hend, hin, _, hx⟩ | ⟨k, hc, _, hx⟩ |
    ⟨a, habsent, ha, _⟩
  · exact .inl ⟨k, hc, hx⟩
  · exact .inr (.inl ⟨hc, hx⟩)
  · exact .inr (.inr (.inl ⟨z, ⟨hz30, hz, by omega⟩, hx⟩))
  · exact .inr (.inr (.inr ⟨k, hc, hx⟩))
  · have hthere := hp a ha
    rw [habsent] at hthere
    cases hthere

section

variable {s : State} (hp : s.Present)

include hp

theorem ue_of_codeAt {k : Nat} (hc : s.CodeAt k) :
    ue s = .value (BitVec.ofNat 32 (s.codeValue k)) (s.ueAt (s.off + 2 * k + 1) k) := by
  obtain ⟨hk, hz, hm, hl⟩ := hc
  rcases ue_cases_of_present hp (by omega) with ⟨j, ⟨_, hzj, hmj, _⟩, hx⟩ | ⟨⟨hz31, _⟩, _⟩ |
    ⟨j, ⟨_, hzj, _⟩, _⟩ | ⟨j, ⟨_, hzj, hmj, _⟩, _⟩
  · obtain rfl := zeros_before_marker_unique hzj hmj hz hm
    exact hx
  · have := hz31.le_of_streamBit_eq_one hm
    omega
  · have := hzj.le_of_streamBit_eq_one hm
    omega
  · obtain rfl := zeros_before_marker_unique hzj hmj hz hm
    omega

theorem ue_of_tooLongAt (hc : s.TooLongAt) : ue s = .raised .codeTooLong (s.ueAt (s.off + 31) 31) := by
  obtain ⟨hz, hl⟩ := hc
  rcases ue_cases_of_present hp (by omega) with ⟨j, ⟨_, _, hmj, _⟩, _⟩ | ⟨_, hx⟩ | ⟨j, ⟨_, _, _⟩, _⟩ |
    ⟨j, ⟨_, _, hmj, _⟩, _⟩
  · have := hz.le_of_streamBit_eq_one hmj
    omega
  · exact hx
  · omega
  · have := hz.le_of_streamBit_eq_one hmj
    omega

theorem ue_of_countUnderrunAt {z : Nat} (hc : s.CountUnderrunAt z) :
    ue s = .raised .bufferUnderrun (s.ueAt (s.off + z) z) := by
  obtain ⟨hz30, hz, hend⟩ := hc
  rcases ue_cases_of_present hp (by omega) with ⟨j, ⟨_, _, hmj, _⟩, _⟩ | ⟨⟨_, _⟩, _⟩ | ⟨j, ⟨_, _, hendj⟩, hx⟩ |
    ⟨j, ⟨_, _, hmj, _⟩, _⟩
  · have := hz.le_of_streamBit_eq_one hmj
    omega
  · omega
  · obtain rfl : j = z := by omega
    exact hx
  · have := hz.le_of_streamBit_eq_one hmj
    omega

theorem ue_of_suffixUnderrunAt {k : Nat} (hc : s.SuffixUnderrunAt k) :
    ue s = .raised .bufferUnderrun (s.ueAt (s.off + k + 1) k) := by
  obtain ⟨hk, hz, hm, hl, hshort⟩ := hc
  rcases ue_cases_of_present hp (by omega) with ⟨j, ⟨_, hzj, hmj, _⟩, _⟩ | ⟨⟨hz31, _⟩, _⟩ | ⟨j, ⟨_, hzj, _⟩, _⟩ |
    ⟨j, ⟨_, hzj, hmj, _⟩, hx⟩
  · obtain rfl := zeros_before_marker_unique hzj hmj hz hm
    omega
  · have := hz31.le_of_streamBit_eq_one hm
    omega
  · have := hzj.le_of_streamBit_eq_one hm
    omega
  · obtain rfl := zeros_before_marker_unique hzj hmj hz hm
    exact hx

end

/-- UE run as an instruction of its own: its value goes to `ret`, its `raise` takes the abort. -/
theorem exec_ue (s : State) : exec .ue s = (ue s).finish fun v s' => s'.setRet v := rfl

end Sys2Proof.Machine

/-! # The obligations on the encoding -/

namespace Sys2Proof.Proofs

open Sys2Proof Sys2Proof.Machine

/-- Settles O23: each case of the element fixes how `ue` ends, and `ue_cases_of_present` leaves no fifth. -/
theorem ueFourCases : Obligations.UeFourCases := by
  intro s hp
  refine ⟨?_, ?_, ?_, ?_, ?_⟩
  · intro k hc
    obtain ⟨_, _, hmax⟩ := s.codeValue_bounds hc.1
    exact ⟨hmax, by rw [exec_ue, ue_of_codeAt hp hc]; rfl⟩
  · intro hc
    rw [exec_ue, ue_of_tooLongAt hp hc]
    rfl
  · intro z hc
    rw [exec_ue, ue_of_countUnderrunAt hp hc]
    rfl
  · intro k hc
    rw [exec_ue, ue_of_suffixUnderrunAt hp hc]
    rfl
  · intro hoff
    rcases ue_cases_of_present hp hoff with ⟨k, hc, _⟩ | ⟨hc, _⟩ | ⟨z, hc, _⟩ | ⟨k, hc, _⟩
    · exact .inl ⟨k, hc⟩
    · exact .inr (.inl hc)
    · exact .inr (.inr (.inl ⟨z, hc⟩))
    · exact .inr (.inr (.inr ⟨k, hc⟩))

/-- Settles O1: the decoder evaluates each written word to the row and the value of the tables. -/
theorem writtenWordsDecode : Obligations.WrittenWordsDecode :=
  ⟨rfl, rfl, rfl, rfl, rfl, rfl, rfl, rfl, rfl⟩

end Sys2Proof.Proofs

/-! # BitCursor: READBITS and SKIP as instructions of their own (40_bitcursor.md R100 to R107) -/

namespace Sys2Proof.Machine

open Sys2Proof

theorem exec_readBits (n : Nat) (s : State) :
    exec (.readBits n) s = (readBits n s).finish fun v s' => s'.setRet v := rfl

theorem exec_skip (n : Nat) (s : State) : exec (.skip n) s = (skip n s).finish fun _ s' => s' := rfl

/-- R107: outside its widths a READBITS is refused, before any bound is tested. -/
theorem readBits_of_width_outside {n : Nat} (h : n = 0 ∨ 32 < n) (s : State) :
    readBits n s = .refused (.readWidth n) :=
  if_neg (by rw [readWidthOk_iff]; omega)

/-- The first `a` bits of a run weigh `2^b` times what they weigh alone. -/
theorem streamValue_add (m : Memory) (p a b : Nat) :
    streamValue m p (a + b) = streamValue m p a * 2 ^ b + streamValue m (p + a) b := by
  induction a generalizing p with
  | zero => simp [streamValue_zero]
  | succ a ih =>
    rw [Nat.add_right_comm, streamValue_succ, ih, streamValue_succ, Nat.add_right_comm p 1 a, Nat.add_assoc p a 1]
    ring

/-- A value below `2^b` fills the low bits that a shift by `b` leaves free. -/
theorem ofNat_shiftLeft_or_ofNat {b y : Nat} (x : Nat) (hy : y < 2 ^ b) :
    (BitVec.ofNat 32 x <<< b ||| BitVec.ofNat 32 y : Word) = BitVec.ofNat 32 (x * 2 ^ b + y) := by
  rw [← Nat.shiftLeft_eq, Nat.shiftLeft_add_eq_or_of_lt hy, BitVec.ofNat_or]
  congr 1
  refine BitVec.eq_of_toNat_eq ?_
  simp [Nat.shiftLeft_eq]

/-- R103: the value of one read of `a + b` bits is put together from the values of two reads. -/
theorem ofNat_streamValue_add (m : Memory) (p a b : Nat) :
    BitVec.ofNat 32 (streamValue m p (a + b)) =
      (BitVec.ofNat 32 (streamValue m p a) <<< b ||| BitVec.ofNat 32 (streamValue m (p + a) b) : Word) := by
  rw [ofNat_shiftLeft_or_ofNat _ (streamValue_lt m (p + a) b), streamValue_add]

/-- The value of a READBITS that fits lies below `2^n`. -/
theorem readBits_present_lt {n : Nat} {s : State} (h1 : 1 ≤ n) (h32 : n ≤ 32) (h : s.off + n ≤ 8 * s.len.toNat)
    (hp : s.Present) :
    ∃ v : Word, v.toNat < 2 ^ n ∧ readBits n s = .value v (s.setOff (s.off + n)) := by
  have hr := readBits_present h1 h32 h hp
  obtain ⟨_, _, _, _, _, _, hv⟩ := readBits_value hr
  exact ⟨_, hv, hr⟩

/-- An operation run by itself moves the cursor forward, and `LZ` if it is UE; then it ends there (SKIP), delivers a
value, or aborts. -/
theorem exec_operation_next {i : Instr} {s t : State}
    (hi : (∃ n, i = .readBits n) ∨ (∃ n, i = .skip n) ∨ i = .ue) (he : exec i s = .next t) :
    ∃ p l, s.off ≤ p ∧ (i ≠ .ue → l = s.lz) ∧
      (t = (s.setOff p).setLz l ∨ (∃ v, t = ((s.setOff p).setLz l).setRet v) ∨
       ∃ e, t = ((s.setOff p).setLz l).abort e) := by
  obtain ⟨n, rfl⟩ | ⟨n, rfl⟩ | rfl := hi
  · rw [exec_readBits] at he
    obtain ⟨v, s', hr, rfl⟩ | ⟨e, s', hr, rfl⟩ := OpResult.finish_eq_next he
    · obtain ⟨_, _, _, _, rfl, _, _⟩ := readBits_value hr
      exact ⟨s.off + n, s.lz, by omega, fun _ => rfl, .inr (.inl ⟨v, rfl⟩)⟩
    · obtain ⟨_, _, _, _, rfl⟩ := readBits_raised hr
      exact ⟨s'.off, s'.lz, le_rfl, fun _ => rfl, .inr (.inr ⟨e, rfl⟩)⟩
  · rw [exec_skip] at he
    rcases skip_cases n s with ⟨_, hr⟩ | ⟨_, hr⟩ <;> rw [hr] at he <;> cases he
    · exact ⟨s.off, s.lz, le_rfl, fun _ => rfl, .inr (.inr ⟨_, rfl⟩)⟩
    · exact ⟨s.off + n, s.lz, by omega, fun _ => rfl, .inl rfl⟩
  · rw [exec_ue] at he
    obtain ⟨v, s', hr, rfl⟩ | ⟨e, s', hr, rfl⟩ := OpResult.finish_eq_next he
    · obtain ⟨k, _, _, _, _, rfl⟩ := ue_value hr
      exact ⟨_, _, by omega, (absurd rfl ·), .inr (.inl ⟨v, rfl⟩)⟩
    · obtain ⟨p, k, rfl, hp, _⟩ := ue_raised hr
      exact ⟨p, _, hp, (absurd rfl ·), .inr (.inr ⟨e, rfl⟩)⟩

end Sys2Proof.Machine

/-! # The obligations on the BitCursor -/

namespace Sys2Proof.Proofs

open Sys2Proof Sys2Proof.Machine

/-- Settles O13: `readBits` raises or delivers, and `exec` takes the abort or keeps the value in `ret`. -/
theorem readBitsEffect : Obligations.ReadBitsEffect := by
  intro s n h1 h32
  refine ⟨fun hu => ?_, fun hfit hp => ⟨streamValue_lt s.mem s.off n, ?_⟩⟩
  · rw [exec_readBits, readBits_underrun h1 h32 hu]
    rfl
  · rw [exec_readBits, readBits_present h1 h32 hfit hp]
    rfl

/-- Settles O14: where the whole fits both parts do, and the values join by `ofNat_streamValue_add`; where it does not,
the bounds test of the second part is that of the whole. -/
theorem readBitsSplits : Obligations.ReadBitsSplits := by
  refine ⟨fun _ _ => readBits_present_lt, ?_⟩
  intro s a b ha hb hab hp
  have hp' : (s.setOff (s.off + a)).Present := hp
  refine ⟨fun hfit => ?_, readBits_underrun (by omega) hab, readBits_underrun ha (by omega), fun hu hfit => ?_⟩
  · have hra := readBits_present ha (by omega) (by omega) hp
    have hrb := readBits_present hb (by omega) (by simpa [Nat.add_assoc] using hfit) hp'
    obtain ⟨_, _, _, _, _, _, hva⟩ := readBits_value hra
    obtain ⟨_, _, _, _, _, _, hvb⟩ := readBits_value hrb
    refine ⟨_, _, hva, hvb, hra, hrb, ?_⟩
    rw [readBits_present (by omega) hab hfit hp, ofNat_streamValue_add]
    rfl
  · exact ⟨_, readBits_present ha (by omega) hfit hp,
      readBits_underrun hb (by omega) (by simpa [Nat.add_assoc] using hu)⟩

/-- Settles O15: the width test comes first, and no step row is refused. -/
theorem readWidthRefused : Obligations.ReadWidthRefused := by
  refine ⟨fun s n h => ?_, fun _ _ _ => exec_stepRow_not_refused⟩
  rw [exec_readBits, readBits_of_width_outside h]
  rfl

/-- Settles O39: what `exec_operation_next` says an operation can do changes nothing else. -/
theorem operationFrame : Obligations.OperationFrame := by
  intro s t i hi he
  obtain ⟨p, l, hp, hl, rfl | ⟨v, rfl⟩ | ⟨e, rfl⟩⟩ := exec_operation_next hi he <;>
    simpa using ⟨hp, hl⟩

/-- Settles O16: the two ends of `skip`, which reads no byte. -/
theorem skipEffect : Obligations.SkipEffect := by
  intro s n
  refine ⟨fun hu => ?_, fun hfit => ?_⟩
  · rw [exec_skip, skip_underrun hu]
    rfl
  · rw [exec_skip, skip_passes hfit]
    rfl

end Sys2Proof.Proofs

/-! # 31 zero bits, on any buffer (41_expgolomb.md R122) -/

namespace Sys2Proof.Machine

open Sys2Proof

section
variable {s : State} {left : Nat} (hfit : s.off + left ≤ 8 * s.len.toNat)
  (h0 : ∀ i < left, bitAt s.mem (s.off + i) = some 0)
include hfit h0

/-- As many zeros as the count still allows end it: no marker, no bound and no missing byte comes before. -/
theorem countZeros_of_zero_bits :
    countZeros left s =
      .raised .codeTooLong ((s.setOff (s.off + left)).setLz (s.lz + BitVec.ofNat 5 left)) := by
  rcases countZeros_cases left s with ⟨k, hk, _, _, _, hm, _⟩ | ⟨_, _, _, he⟩ | ⟨z, hz, hu, _⟩ | ⟨i, hi, hm, _⟩
  · have hzero : streamBit s.mem (s.off + k) = 0 := by simp [streamBit, h0 k hk]
    omega
  · exact he
  · omega
  · have hthere := h0 i hi
    rw [bitAt_eq_none.mpr hm] at hthere
    cases hthere

end

/-- R122 without `State.Present`: the suffix is never begun, so no byte beyond the zeros matters. -/
theorem ue_of_31_zero_bits {s : State} (hfit : s.off + 31 ≤ 8 * s.len.toNat)
    (h0 : ∀ i < 31, bitAt s.mem (s.off + i) = some 0) :
    ue s = .raised .codeTooLong (s.ueAt (s.off + 31) 31) := by
  have hcount : countZeros (ueMaxLz + 1) (s.setLz 0) = .raised .codeTooLong (s.ueAt (s.off + 31) 31) :=
    countZeros_of_zero_bits hfit h0
  rw [ue, hcount]
  rfl

end Sys2Proof.Machine

/-! # The obligations on UE -/

namespace Sys2Proof.Proofs

open Sys2Proof Sys2Proof.Machine

/-- Settles O22: the zeros end the count with a `raise`, and `exec` takes the abort. -/
theorem ueTooLongAtThe31stZero : Obligations.UeTooLongAtThe31stZero := by
  intro s hfit h0
  rw [exec_ue, ue_of_31_zero_bits hfit h0]
  rfl

end Sys2Proof.Proofs

/-! # The steps of the parser (42_sps_parser.md R142 to R169) -/

namespace Sys2Proof.Machine

open Sys2Proof

/-- What row `i` does with an element of value `v`, said of the field registers alone: the write to its destination is
`upd v`, its successor `nxt`. -/
structure RowEffect (i : Instr) (upd : Nat → Fields → Fields) (nxt : Fields → StepName) : Prop where
  write (s : State) (v : Nat) : s.writeDest (destOf i) (BitVec.ofNat 32 v) = { s with x := upd v s.x }
  succ (s : State) : follow i s = nxt s.x

/-- A row without a destination keeps its value nowhere (R23). -/
theorem rowEffect_of_no_dest {i : Instr} {nxt : Fields → StepName} (hd : destOf i = none)
    (hs : ∀ s, follow i s = nxt s.x) : RowEffect i (fun _ f => f) nxt :=
  ⟨fun s v => by rw [hd]; rfl, hs⟩

theorem rowEffect_of_dest {i : Instr} {r : FieldReg} {upd : Nat → Fields → Fields} {nxt : Fields → StepName}
    (hd : destOf i = some r) (hw : ∀ (f : Fields) v, f.write r (BitVec.ofNat 32 v) = upd v f)
    (hs : ∀ s, follow i s = nxt s.x) : RowEffect i upd nxt :=
  ⟨fun s v => by rw [hd, State.writeDest_some, State.writeField, hw], hs⟩

/-- R154: the successor of S12 is read off the register it has just written. -/
theorem rowEffect_s12Chroma :
    RowEffect .s12Chroma (fun v f => { f with chroma := some (BitVec.ofNat 32 v) })
      (fun f => if f.chroma = some 3 then .s13 else .s14) :=
  rowEffect_of_dest rfl (fun _ _ => rfl) afterChroma_eq

/-- R158: the successor of S16 is read off the bit it has just written. -/
theorem rowEffect_s16Cwf :
    RowEffect .s16Cwf (fun v f => { f with cwf := some (BitVec.ofNat 1 v) })
      (fun f => if f.cwf = some 1 then .s17 else .s21) :=
  rowEffect_of_dest rfl (fun f v => by rw [Fields.write, BitVec.setWidth_ofNat_of_le (by decide)]) afterCwf_eq

section

variable {i : Instr} {upd : Nat → Fields → Fields} {nxt : Fields → StepName} (h : RowEffect i upd nxt)

include h

theorem RowEffect.advance_eq (s : State) (p : Nat) (l : BitVec 5) (v : Nat) :
    s.advance i p l (BitVec.ofNat 32 v) =
      { s with off := p, lz := l, x := upd v s.x, step := nxt (upd v s.x) } := by
  rw [State.advance, h.write, h.succ]
  rfl

/-- R100, R101: a row that reads `u(n)` delivers or underruns as READBITS does. -/
theorem RowEffect.readsInto {n : Nat} (hn : 1 ≤ n ∧ n ≤ 32)
    (hx : ∀ s, exec i s = performU n (destOf i) (follow i) s) : ReadsInto i n upd nxt := by
  intro s
  obtain ⟨h1, h32⟩ := hn
  refine ⟨fun hu => ?_, fun hfit hp => ?_⟩
  · rw [hx, performU, readBits_underrun h1 h32 hu]
    rfl
  · rw [hx, performU, readBits_present h1 h32 hfit hp]
    exact congrArg _ (h.advance_eq s (s.off + n) s.lz _)

/-- R122 to R126: a row that decodes `ue(v)` has the four cases of UE. -/
theorem RowEffect.decodesInto (hx : ∀ s, exec i s = performUe (destOf i) (follow i) s) : DecodesInto i upd nxt := by
  intro s hp
  refine ⟨fun k hc => ?_, fun hc => ?_, fun z hc => ?_, fun k hc => ?_⟩ <;> rw [hx, performUe]
  · rw [ue_of_codeAt hp hc]
    exact congrArg _ (h.advance_eq s (s.off + 2 * k + 1) (BitVec.ofNat 5 k) _)
  · rw [ue_of_tooLongAt hp hc]
    rfl
  · rw [ue_of_countUnderrunAt hp hc]
    rfl
  · rw [ue_of_suffixUnderrunAt hp hc]
    rfl

end

/-- R104, R105: a row that passes over `x(n)` passes or underruns as SKIP does. -/
theorem skipsTo_of_performSkip {i : Instr} {n : State → Nat} {nxt : StepName}
    (hx : ∀ s, exec i s = performSkip (n s) nxt s) : SkipsTo i n nxt := by
  intro s
  refine ⟨fun hu => ?_, fun hfit => ?_⟩
  · rw [hx, performSkip, skip_underrun hu]
    rfl
  · rw [hx, performSkip, skip_passes hfit]
    rfl

/-! ## Transfers (R169) -/

/-- A turn of the sequencer that answers a next state is the row of `STEP`, run. -/
theorem exec_of_busy_step {s t : State} (hh : s.host = []) (hb : s.phase = .busy) (he : step s = .next t) :
    ∃ i, decodeStep s.step.code = .ok i ∧ exec i s = .next t := by
  rcases step_cases s with ⟨_, _, _, h, _⟩ | ⟨_, _, h, _⟩ | ⟨_, _, h, _⟩ |
    ⟨_, ⟨hidle, _⟩ | ⟨_, _, hx⟩ | ⟨_, i, hd, hx⟩⟩
  · simp [hh] at h
  · simp [hh] at h
  · simp [hh] at h
  · exact absurd hb hidle
  · rw [hx] at he
    cases he
  · exact ⟨i, hd, by rw [← he, hx, consume_of_host_nil hh]⟩

/-! ## S23 (R165, R166) -/

theorem exec_s23_of_assemble {s : State} {r : SpsInfo} (h : assemble s.x = .ok r) :
    exec .s23Assemble s = .next (s.complete r) := by
  simp only [exec, execS23Assemble, h]

theorem pictureSize_of_window {f : Fields} {w h l r t b : Word} (hc : f.cwf = some 1) (hw : f.picw = some w)
    (hh : f.pich = some h) (hl : f.cleft = some l) (hr : f.cright = some r) (ht : f.ctop = some t)
    (hb : f.cbot = some b) : pictureSize f = .ok (w - (l + r), h - (t + b)) := by
  simp only [pictureSize, hc, hw, hh, hl, hr, ht, hb, need_some]
  rfl

/-- Without the window no offset is read. -/
theorem pictureSize_of_no_window {f : Fields} {w h : Word} (hc : f.cwf = some 0) (hw : f.picw = some w)
    (hh : f.pich = some h) : pictureSize f = .ok (w, h) := by
  simp only [pictureSize, hc, hw, hh, need_some]
  rfl

theorem assemble_of_pictureSize {f : Fields} {w h : Word} {ps : BitVec 2} {tf : BitVec 1} {pi : BitVec 5}
    {li : BitVec 8} {cf bl bc : Word} (hsize : pictureSize f = .ok (w, h)) (hps : f.pspace = some ps)
    (htf : f.tier = some tf) (hpi : f.pidc = some pi) (hli : f.level = some li) (hcf : f.chroma = some cf)
    (hbl : f.bdlm8 = some bl) (hbc : f.bdcm8 = some bc) :
    assemble f = .ok ⟨w, h, ps, tf, pi, li, cf, bl + 8, bc + 8⟩ := by
  simp only [assemble, hsize, hps, htf, hpi, hli, hcf, hbl, hbc, need_some]
  rfl

end Sys2Proof.Machine

/-! # The obligations on the steps of the parser -/

namespace Sys2Proof.Proofs

open Sys2Proof Sys2Proof.Machine

/-- Settles O27: three rows that read and have no destination. -/
theorem discardingReads : Obligations.DiscardingReads :=
  ⟨RowEffect.readsInto (rowEffect_of_no_dest rfl fun _ => rfl) (by decide) fun _ => rfl,
   RowEffect.readsInto (rowEffect_of_no_dest rfl fun _ => rfl) (by decide) fun _ => rfl,
   RowEffect.readsInto (rowEffect_of_no_dest rfl fun _ => rfl) (by decide) fun _ => rfl⟩

/-- Settles O28: four rows that read into a register narrower than a word, which keeps the low bits of the value. -/
theorem profileReads : Obligations.ProfileReads := by
  refine ⟨RowEffect.readsInto (rowEffect_of_dest rfl ?_ fun _ => rfl) (by decide) fun _ => rfl,
    RowEffect.readsInto (rowEffect_of_dest rfl ?_ fun _ => rfl) (by decide) fun _ => rfl,
    RowEffect.readsInto (rowEffect_of_dest rfl ?_ fun _ => rfl) (by decide) fun _ => rfl,
    RowEffect.readsInto (rowEffect_of_dest rfl ?_ fun _ => rfl) (by decide) fun _ => rfl⟩ <;>
  · intro f v
    rw [Fields.write, BitVec.setWidth_ofNat_of_le (by decide)]

/-- Settles O29: S12 tests the register it has written, S13 has no destination. -/
theorem chromaBranch : Obligations.ChromaBranch :=
  ⟨rowEffect_s12Chroma.decodesInto fun _ => rfl,
   RowEffect.readsInto (rowEffect_of_no_dest rfl fun _ => rfl) (by decide) fun _ => rfl⟩

/-- Settles O30: three rows that decode, the first without a destination. -/
theorem pictureSizeSteps : Obligations.PictureSizeSteps :=
  ⟨RowEffect.decodesInto (rowEffect_of_no_dest rfl fun _ => rfl) fun _ => rfl,
   RowEffect.decodesInto (rowEffect_of_dest rfl (fun _ _ => rfl) fun _ => rfl) fun _ => rfl,
   RowEffect.decodesInto (rowEffect_of_dest rfl (fun _ _ => rfl) fun _ => rfl) fun _ => rfl⟩

/-- Settles O31: S16 tests the bit it has written, and S17 to S20 decode one after another. -/
theorem conformanceWindowSteps : Obligations.ConformanceWindowSteps :=
  ⟨rowEffect_s16Cwf.readsInto (by decide) fun _ => rfl,
   RowEffect.decodesInto (rowEffect_of_dest rfl (fun _ _ => rfl) fun _ => rfl) fun _ => rfl,
   RowEffect.decodesInto (rowEffect_of_dest rfl (fun _ _ => rfl) fun _ => rfl) fun _ => rfl,
   RowEffect.decodesInto (rowEffect_of_dest rfl (fun _ _ => rfl) fun _ => rfl) fun _ => rfl,
   RowEffect.decodesInto (rowEffect_of_dest rfl (fun _ _ => rfl) fun _ => rfl) fun _ => rfl⟩

/-- Settles O32: two rows that decode into a word. -/
theorem bitDepthSteps : Obligations.BitDepthSteps :=
  ⟨RowEffect.decodesInto (rowEffect_of_dest rfl (fun _ _ => rfl) fun _ => rfl) fun _ => rfl,
   RowEffect.decodesInto (rowEffect_of_dest rfl (fun _ _ => rfl) fun _ => rfl) fun _ => rfl⟩

/-- Settles O36: the row of `STEP` completes, goes on as `State.advance_step_cases` says, or aborts where it stands. -/
theorem sequencerTransfers : Obligations.SequencerTransfers := by
  intro s t hh hb he
  obtain ⟨i, hd, hx⟩ := exec_of_busy_step hh hb he
  obtain ⟨_, hrow, h23⟩ := decodeStep_ok hd
  by_cases hs : s.step = .s23
  · rw [h23.mpr hs] at hx
    obtain ⟨r, _, rfl⟩ := execS23_next hx
    exact .inr (.inl ⟨rfl, hs, hs⟩)
  · obtain ⟨p, l, _, _, ⟨v, _, _, rfl⟩ | ⟨e, _, rfl⟩⟩ := exec_stepRow_next hrow (hs ∘ h23.mp) hx
    · refine .inl ⟨by rw [State.advance_phase, hb], ?_⟩
      rcases State.advance_step_cases hd hs p l v with ⟨h12, ht⟩ | ⟨h16, ht⟩ | ⟨h12, h16, ht⟩
      · rw [if_pos h12, ht, apply_ite StepName.index]
        rfl
      · rw [if_neg (by rw [h16]; decide), if_pos h16, ht, apply_ite StepName.index]
        rfl
      · rw [if_neg h12, if_neg h16, ht]
    · exact .inr (.inr ⟨rfl, hs, rfl⟩)

/-- Settles O26: three rows that skip, the first by the configured width. -/
theorem skippingSteps : Obligations.SkippingSteps :=
  ⟨skipsTo_of_performSkip fun _ => rfl, skipsTo_of_performSkip fun _ => rfl, skipsTo_of_performSkip fun _ => rfl⟩

/-- Settles O33: the flag decides the size, and the size with the other seven registers makes the record. -/
theorem assembleWritesTheRecord : Obligations.AssembleWritesTheRecord := by
  intro s ps tf pi li cf w h bl bc hps htf hpi hli hcf hw hh hbl hbc
  refine ⟨fun l r t b hc hl hr ht hb => ?_, fun hc => ?_⟩
  · have hsize := pictureSize_of_window hc hw hh hl hr ht hb
    exact exec_s23_of_assemble (assemble_of_pictureSize hsize hps htf hpi hli hcf hbl hbc)
  · have hsize := pictureSize_of_no_window hc hw hh
    exact exec_s23_of_assemble (assemble_of_pictureSize hsize hps htf hpi hli hcf hbl hbc)

/-- Settles O40: `State.complete`, all that S23 does, writes `OUT` and `PHASE` only. -/
theorem assembleFrame : Obligations.AssembleFrame := by
  intro s t he
  obtain ⟨r, _, rfl⟩ := execS23_next he
  exact ⟨rfl, rfl, rfl, rfl, rfl, rfl, rfl, rfl, rfl, rfl, fun _ => rfl⟩

/-- Settles O54: the parse of the scenario's fixed buffer, evaluated. -/
theorem endToEndScenario : Obligations.EndToEndScenario := by
  unfold Obligations.EndToEndScenario
  decide

end Sys2Proof.Proofs

/-! # A parse left alone (42_sps_parser.md section 9, 60_exceptions.md R190 to R206) -/

namespace Sys2Proof.Machine

open Sys2Proof

/-! ## What a raise leaves (R194) -/

/-- A step row that ends in `ERROR` has aborted: on its bounds test, which moves nothing, or in its UE, which says what
`OFF` and `LZ` are left. -/
theorem exec_stepRow_error {i : Instr} {s t : State} (hrow : isStepRow i = true) (hb : s.phase = .busy)
    (he : exec i s = .next t) (ht : t.phase = .error) :
    i ≠ .s23Assemble ∧
      ((i.format s.cfg.nalSkipBits.val ≠ .ue ∧ t = s.abort .bufferUnderrun) ∨
       (i.format s.cfg.nalSkipBits.val = .ue ∧ ∃ e p k, ue s = .raised e (s.ueAt p k) ∧
         (e = .codeTooLong → p = s.off + 31) ∧ t = (s.ueAt p k).abort e)) := by
  have h23 : i ≠ .s23Assemble := by
    rintro rfl
    obtain ⟨r, _, rfl⟩ := execS23_next he
    cases ht
  refine ⟨h23, ?_⟩
  rcases exec_kind i s hrow h23 with ⟨n, nx, hf, _, _, hx⟩ | ⟨n, nx, hf, _, hx⟩ | ⟨nx, hf, hx⟩ <;> rw [hx] at he
  · rcases performU_next he with ⟨v, _, _, rfl⟩ | ⟨_, rfl⟩
    · simp [hb] at ht
    · exact .inl ⟨by simp [hf], rfl⟩
  · rcases performSkip_next he with ⟨_, rfl⟩ | ⟨_, rfl⟩
    · simp [hb] at ht
    · exact .inl ⟨by simp [hf], rfl⟩
  · rcases performUe_next he with ⟨k, v, _, _, _, rfl⟩ | ⟨e, p, k, hu, _, _, hp, rfl⟩
    · simp [hb] at ht
    · exact .inr ⟨hf, e, p, k, hu, hp, rfl⟩

/-! ## No row stops in a parse (42_sps_parser.md R171) -/

/-- On a buffer that is there a row S1 to S22 always answers a next state. -/
theorem exec_stepRow_of_present {i : Instr} {s : State} (hrow : isStepRow i = true) (h23 : i ≠ .s23Assemble)
    (hp : s.Present) : ∃ t, exec i s = .next t := by
  cases he : exec i s with
  | next t => exact ⟨t, rfl⟩
  | refused r => exact absurd he (exec_stepRow_not_refused hrow)
  | fault f =>
    obtain ⟨a, _, ha, habsent⟩ := exec_stepRow_fault hrow h23 he
    have hthere := hp a ha
    rw [habsent] at hthere
    cases hthere

theorem exists_eq_some_of_isSome_map {α β : Type} {o : Option α} {g : α → β} (h : (o.map g).isSome = true) :
    ∃ v, o = some v := by
  rwa [Option.isSome_map, Option.isSome_iff_exists] at h

/-- At S23 every register is written but the offsets without a window, and these `assemble` does not read. -/
theorem FieldsInv.assemble_at_s23 {s : State} (hf : FieldsInv s) (hs : s.step = .s23) :
    ∃ r, assemble s.x = .ok r := by
  have written : ∀ r, (inWindow r = true → s.x.cwf = some 1) → (fieldValue s.x r).isSome = true := fun r hw =>
    (hf r).mpr ⟨by rw [hs]; cases r <;> decide, hw⟩
  obtain ⟨ps, hps⟩ := exists_eq_some_of_isSome_map (written .pspace nofun)
  obtain ⟨tf, htf⟩ := exists_eq_some_of_isSome_map (written .tier nofun)
  obtain ⟨pi, hpi⟩ := exists_eq_some_of_isSome_map (written .pidc nofun)
  obtain ⟨li, hli⟩ := exists_eq_some_of_isSome_map (written .level nofun)
  obtain ⟨cf, hcf⟩ := exists_eq_some_of_isSome_map (written .chroma nofun)
  obtain ⟨w, hw⟩ := exists_eq_some_of_isSome_map (written .picw nofun)
  obtain ⟨h, hh⟩ := exists_eq_some_of_isSome_map (written .pich nofun)
  obtain ⟨c, hc⟩ := exists_eq_some_of_isSome_map (written .cwf nofun)
  obtain ⟨bl, hbl⟩ := exists_eq_some_of_isSome_map (written .bdlm8 nofun)
  obtain ⟨bc, hbc⟩ := exists_eq_some_of_isSome_map (written .bdcm8 nofun)
  rcases BitVec.eq_zero_or_eq_one c with rfl | rfl
  · have hsize := pictureSize_of_no_window hc hw hh
    exact ⟨_, assemble_of_pictureSize hsize hps htf hpi hli hcf hbl hbc⟩
  · obtain ⟨l, hl⟩ := exists_eq_some_of_isSome_map (written .cleft fun _ => hc)
    obtain ⟨r, hr⟩ := exists_eq_some_of_isSome_map (written .cright fun _ => hc)
    obtain ⟨tp, htp⟩ := exists_eq_some_of_isSome_map (written .ctop fun _ => hc)
    obtain ⟨bo, hbo⟩ := exists_eq_some_of_isSome_map (written .cbot fun _ => hc)
    have hsize := pictureSize_of_window hc hw hh hl hr htp hbo
    exact ⟨_, assemble_of_pictureSize hsize hps htf hpi hli hcf hbl hbc⟩

/-! ## The measure: the steps still to come -/

/-- A row that goes on leaves a later step: `23 - STEP` falls. -/
theorem State.index_lt_advance_step {s : State} {i : Instr} (h : decodeStep s.step.code = .ok i) (h23 : s.step ≠ .s23)
    (p : Nat) (l : BitVec 5) (v : Word) : s.step.index < (s.advance i p l v).step.index := by
  rcases State.advance_step_cases h h23 p l v with ⟨hs, ht⟩ | ⟨hs, ht⟩ | ⟨_, _, ht⟩
  · rw [hs, ht]
    split <;> decide
  · rw [hs, ht]
    split <;> decide
  · omega

theorem StepName.index_le (st : StepName) : st.index ≤ 23 := by cases st <;> decide

/-- A parse that is running on its own: the host is silent and the buffer is there. -/
structure Parsing (s : State) : Prop where
  inv     : Inv s
  host    : s.host = []
  phase   : s.phase = .busy
  present : s.Present

/-- One transition of a running parse ends it or leaves it running at a later step. -/
theorem Parsing.step {s : State} (h : Parsing s) :
    ∃ t, step s = .next t ∧ (Ended t ∨ Parsing t ∧ s.step.index < t.step.index) := by
  obtain ⟨hinv, hh, hb, hp⟩ := h
  obtain ⟨hpos, _, _⟩ := hinv.phase.of_busy hb
  obtain ⟨i, hd, hrow, _⟩ := decodeStep_code s.step hpos
  have hx : Machine.step s = exec i s := Proofs.stepRunsDecodedRow.1 s i hh hb hd
  obtain ⟨_, _, h23⟩ := decodeStep_ok hd
  by_cases hs : s.step = .s23
  · obtain ⟨r, hr⟩ := hinv.fields.assemble_at_s23 hs
    exact ⟨s.complete r, by rw [hx, h23.mpr hs, exec_s23_of_assemble hr], .inl (.inl rfl)⟩
  · obtain ⟨t, he⟩ := exec_stepRow_of_present hrow (hs ∘ h23.mp) hp
    have hinv' : Inv t := hinv.stepRow hb hd he
    refine ⟨t, hx.trans he, ?_⟩
    obtain ⟨p, l, _, _, ⟨v, _, _, rfl⟩ | ⟨e, _, rfl⟩⟩ := exec_stepRow_next hrow (hs ∘ h23.mp) he
    · exact .inr ⟨⟨hinv', by simpa using hh, by simpa using hb, by simpa [State.Present] using hp⟩,
        State.index_lt_advance_step hd hs p l v⟩
    · exact .inl (.inr rfl)

theorem runSteps_succ_of_step {s t : State} (h : step s = .next t) (k : Nat) :
    runSteps (k + 1) s = runSteps k t := by
  have hcore : Host.Core.step core s = .next t := h
  simp only [runSteps, Host.Core.run, hcore]
  rfl

/-- A running parse ends within as many transitions as there are steps from `STEP` to S23. -/
theorem Parsing.ends {s : State} (h : Parsing s) {n : Nat} (hn : 24 ≤ s.step.index + n) :
    ∃ k t, k ≤ n ∧ runSteps k s = .next t ∧ Ended t := by
  induction n generalizing s with
  | zero =>
    have := s.step.index_le
    omega
  | succ n ih =>
    obtain ⟨t, hx, hend | ⟨ht, hlt⟩⟩ := h.step
    · exact ⟨1, t, by omega, runSteps_succ_of_step hx 0, hend⟩
    · obtain ⟨k, u, hk, hrun, hend⟩ := ih ht (by omega)
      exact ⟨k + 1, u, by omega, (runSteps_succ_of_step hx k).trans hrun, hend⟩

/-! ## Outside `BUSY` (60_exceptions.md R206) -/

theorem State.place_of_not_busy {s : State} (h : s.phase ≠ .busy) (bytes : List Byte) :
    s.place bytes = .next { s with mem := Memory.ofBytes 0 bytes } :=
  if_neg h

end Sys2Proof.Machine

/-! # The obligations on the end of a parse -/

namespace Sys2Proof.Proofs

open Sys2Proof Sys2Proof.Machine

/-- Settles O47: `STEP` is S1 or later, and every transition that does not end the parse raises it, up to S23. -/
theorem everyParseEnds : Obligations.EveryParseEnds := by
  intro s hinv hh hb hp
  obtain ⟨hpos, _, _⟩ := hinv.phase.of_busy hb
  exact Parsing.ends ⟨hinv, hh, hb, hp⟩ (by omega)

/-- Settles O37: the row aborted on its bounds test or in its UE, and the abort writes `PHASE` and `ERR` only. -/
theorem abortLeaves : Obligations.AbortLeaves := by
  intro s t i hrow hb he ht
  have hout : PhaseInv s → s.out = none := fun h => (h.of_busy hb).2.2
  obtain ⟨h23, ⟨hf, rfl⟩ | ⟨hf, e, p, k, hu, hp, rfl⟩⟩ := exec_stepRow_error hrow hb he ht
  · exact ⟨rfl, rfl, rfl, rfl, hout, .inl ⟨rfl, h23⟩, fun _ => ⟨rfl, rfl⟩, (absurd · hf)⟩
  · refine ⟨rfl, rfl, rfl, rfl, hout, ?_, (absurd hf ·), fun _ => ⟨e, _, hu, rfl, rfl, rfl⟩⟩
    cases e with
    | bufferUnderrun => exact .inl ⟨rfl, h23⟩
    | codeTooLong => exact .inr ⟨rfl, hf, hp rfl⟩

/-- Settles O5: of the transitions outside `BUSY`, the premise excludes reset and START; a placing and an idle turn are
left. -/
theorem nothingMovesOutsideBusy : Obligations.NothingMovesOutsideBusy := by
  intro s hb hlow
  rcases step_cases s with ⟨start, len, rest, hh, _⟩ | ⟨bytes, rest, hh, hx⟩ | ⟨len, rest, hh, _⟩ |
    ⟨_, ⟨_, hx⟩ | ⟨hbusy, _, _⟩ | ⟨hbusy, _⟩⟩
  · obtain ⟨hrst, _⟩ := hlow _ _ _ _ hh
    cases hrst
  · exact ⟨Memory.ofBytes 0 bytes, hx.trans (State.place_of_not_busy (s := s.consume) hb bytes),
      fun hno => absurd hh (hno bytes rest)⟩
  · obtain ⟨_, hstart⟩ := hlow _ _ _ _ hh
    cases hstart
  · exact ⟨s.mem, hx, fun _ => rfl⟩
  · exact absurd hbusy hb
  · exact absurd hbusy hb

end Sys2Proof.Proofs

/-! # Reset and the placing of a buffer (70_reset_and_hazards.md R220, R223, R226) -/

namespace Sys2Proof.Machine

open Sys2Proof

theorem State.place_of_busy {s : State} (h : s.phase = .busy) (bytes : List Byte) :
    s.place bytes = .refused .bufferChanged :=
  if_pos h

/-- A buffer of the host's is placed whatever the sequencer would do. -/
theorem step_of_place {s : State} {bytes : List Byte} {rest : List HostMove} (h : s.host = .place bytes :: rest) :
    step s = ({ s with host := rest } : State).place bytes := by
  have hsel : s.select = .place bytes := by simp only [State.select, h]
  simp only [step, hsel, consume_of_host_cons h]

/-- `rst` is taken in every phase and before `start` is looked at (R220). -/
theorem step_of_rst {s : State} {start : Bool} {len : Word} {rest : List HostMove}
    (h : s.host = .clock true start len :: rest) : step s = .next ({ s with host := rest } : State).doReset := by
  have hsel : s.select = .reset := by simp only [State.select, h, if_true]
  simp only [step, hsel, consume_of_host_cons h]

end Sys2Proof.Machine

/-! # The obligations on reset and the placing of a buffer -/

namespace Sys2Proof.Proofs

open Sys2Proof Sys2Proof.Machine

/-- Settles O8: the buffer laid out from address 0 is the memory asked for. -/
theorem hostPlacesBuffer : Obligations.HostPlacesBuffer := by
  intro s bytes rest hh
  rw [step_of_place hh]
  refine ⟨fun hb => ⟨Memory.ofBytes 0 bytes, ?_, Memory.wf_ofBytes bytes 0, fun a => ?_⟩, fun hb => ?_⟩
  · exact State.place_of_not_busy (s := { s with host := rest }) hb bytes
  · simp [Memory.read_ofBytes]
  · exact State.place_of_busy (s := { s with host := rest }) hb bytes

/-- Settles O7: the state after the reset is `State.doReset`, which holds the reset values, whatever `start` was. -/
theorem resetFromAnyState : Obligations.ResetFromAnyState := by
  intro s start len rest hh
  exact ⟨_, step_of_rst hh, rfl, rfl, rfl, rfl, rfl, fieldValue_empty, rfl, rfl, rfl, rfl⟩

end Sys2Proof.Proofs

/-! # ue(v) codes and values (30_encoding.md section 2) -/

namespace Sys2Proof

/-- `encodeU` writes the low bits only. -/
theorem encodeU_two_pow_mul_add {n k x : Nat} (hx : x < 2 ^ k) (hn : n ≤ k) (c : Nat) :
    encodeU n (2 ^ k * c + x) = encodeU n x := by
  induction n with
  | zero => rfl
  | succ n ih => rw [encodeU, encodeU, ih (by omega), Nat.testBit_two_pow_mul_add c hx, if_pos (by omega)]

theorem encodeU_succ_of_lt {n x : Nat} (hx : x < 2 ^ n) (b : Bool) :
    encodeU (n + 1) (2 ^ n * b.toNat + x) = b :: encodeU n x := by
  rw [encodeU, encodeU_two_pow_mul_add hx le_rfl, Nat.testBit_two_pow_mul_add b.toNat hx, if_neg (by omega)]
  cases b <;> simp

theorem length_encodeU (n v : Nat) : (encodeU n v).length = n := by
  induction n with
  | zero => rfl
  | succ n ih => rw [encodeU, List.length_cons, ih]

/-- What a `u(n)` decoder delivers is the `n` bits it took off the front. -/
theorem decodeU_ok {n acc w : Nat} {bits rest : List Bool} (h : decodeU n acc bits = .ok (w, rest)) :
    ∃ x < 2 ^ n, w = acc * 2 ^ n + x ∧ bits = encodeU n x ++ rest := by
  induction n generalizing acc bits with
  | zero =>
    cases h
    exact ⟨0, by simp, by simp, rfl⟩
  | succ n ih =>
    cases bits with
    | nil => cases h
    | cons b bits =>
      obtain ⟨x, hx, rfl, rfl⟩ := ih h
      have hb : 2 ^ n * b.toNat ≤ 2 ^ n := by cases b <;> simp
      refine ⟨2 ^ n * b.toNat + x, ?_, by ring, ?_⟩
      · rw [Nat.pow_succ]
        omega
      · rw [encodeU_succ_of_lt hx, List.cons_append]

/-- The zeros counted, and the marker, stood at the front. -/
theorem decodeZeros_ok {left k j : Nat} {bits rest : List Bool} (h : decodeZeros left k bits = .ok (j, rest)) :
    ∃ m < left, j = k + m ∧ bits = List.replicate m false ++ true :: rest := by
  induction left generalizing k bits with
  | zero => cases h
  | succ left ih =>
    match bits, h with
    | true :: bits, h =>
      cases h
      exact ⟨0, by omega, rfl, rfl⟩
    | false :: bits, h =>
      obtain ⟨m, hm, rfl, rfl⟩ := ih h
      exact ⟨m + 1, by omega, by omega, rfl⟩

/-- As many zeros as are left end the count, whatever follows (R82). -/
theorem decodeZeros_too_long (left k : Nat) (rest : List Bool) :
    decodeZeros left k (List.replicate left false ++ rest) = .error .codeTooLong := by
  induction left generalizing k with
  | zero => rfl
  | succ left ih => exact ih (k + 1)

/-- Class `k` holds the values whose successor has `k + 1` bits. -/
theorem log2_succ_eq_iff {k v : Nat} : Nat.log2 (v + 1) = k ↔ 2 ^ k - 1 ≤ v ∧ v ≤ 2 ^ (k + 1) - 2 := by
  have hpos : 0 < 2 ^ k := Nat.two_pow_pos k
  rw [Nat.log2_eq_iff (by omega), Nat.pow_succ]
  omega

/-- The code of a value of class `k` (the table of classes). -/
theorem encodeUe_of_class {k v : Nat} (h : Nat.log2 (v + 1) = k) :
    encodeUe v = List.replicate k false ++ true :: encodeU k (v + 1 - 2 ^ k) := by
  obtain ⟨hlo, hhi⟩ := (Nat.log2_eq_iff (by omega)).mp h
  have hpow : 2 ^ (k + 1) = 2 * 2 ^ k := by ring
  have hlow := encodeU_two_pow_mul_add (n := k) (show v + 1 - 2 ^ k < 2 ^ k by omega) le_rfl 1
  rw [show 2 ^ k * 1 + (v + 1 - 2 ^ k) = v + 1 by omega] at hlow
  rw [encodeUe_eq h, hlow]

theorem length_encodeUe {k v : Nat} (h : Nat.log2 (v + 1) = k) : (encodeUe v).length = 2 * k + 1 := by
  rw [encodeUe_of_class h, List.length_append, List.length_replicate, List.length_cons, length_encodeU]
  omega

/-- Whatever decodes is the code of the value it decodes to (R74, R76). -/
theorem decodeUe_ok {bits rest : List Bool} {v : Nat} (h : decodeUe bits = .ok (v, rest)) :
    v ≤ 2 ^ 31 - 2 ∧ bits = encodeUe v ++ rest := by
  unfold decodeUe at h
  split at h
  · cases h
  · next hz =>
    split at h
    · cases h
    · next hu =>
      cases h
      obtain ⟨k, hk, rfl, rfl⟩ := decodeZeros_ok hz
      obtain ⟨x, hx, rfl, rfl⟩ := decodeU_ok hu
      simp only [Nat.zero_add, Nat.zero_mul] at hx ⊢
      have hk30 : 2 ^ k ≤ 2 ^ 30 := Nat.pow_le_pow_right (by omega) (Nat.lt_succ_iff.mp hk)
      have hclass : Nat.log2 (2 ^ k - 1 + x + 1) = k := log2_succ_eq_iff.mpr (by rw [Nat.pow_succ]; omega)
      refine ⟨by omega, ?_⟩
      rw [encodeUe_of_class hclass, show 2 ^ k - 1 + x + 1 - 2 ^ k = x by omega, List.append_assoc, List.cons_append]

end Sys2Proof

/-! # The obligation on the codes -/

namespace Sys2Proof.Proofs

open Sys2Proof Sys2Proof.Machine

/-- Settles O3: the class of a value is the logarithm of its successor, and each decoder gives back what it took. -/
theorem ueCodesAndValuesCorrespond : Obligations.UeCodesAndValuesCorrespond := by
  refine ⟨fun k v _ hlo hhi => ?_, fun _ rest hv => decodeUe_encodeUe hv rest, fun _ _ _ => decodeUe_ok, fun rest => ?_⟩
  · have hclass := log2_succ_eq_iff.mpr ⟨hlo, hhi⟩
    exact ⟨encodeUe_of_class hclass, length_encodeUe hclass⟩
  · rw [decodeUe, ueMaxLz, decodeZeros_too_long]

end Sys2Proof.Proofs

/-! # UE and the format decoder (41_expgolomb.md sections 1 and 2) -/

namespace Sys2Proof

/-- Fewer than `n` bits are too few. -/
theorem decodeU_truncated {n acc : Nat} {bits : List Bool} (h : bits.length < n) :
    decodeU n acc bits = .error .truncated := by
  induction n generalizing acc bits with
  | zero => omega
  | succ n ih =>
    cases bits with
    | nil => rfl
    | cons b bits => exact ih (by simpa using h)

/-- Zeros that run to the end of the bits, before the count is exhausted. -/
theorem decodeZeros_truncated {left z : Nat} (h : z < left) (k : Nat) :
    decodeZeros left k (List.replicate z false) = .error .truncated := by
  induction left generalizing z k with
  | zero => omega
  | succ left ih =>
    cases z with
    | zero => rfl
    | succ z => exact ih (by omega) (k + 1)

end Sys2Proof

namespace Sys2Proof.Machine

open Sys2Proof

/-! ## A stretch of the stream as a list of bits -/

theorem length_streamBits (m : Memory) (p n : Nat) : (streamBits m p n).length = n := by simp [streamBits]

theorem streamBits_succ (m : Memory) (p n : Nat) :
    streamBits m p (n + 1) = decide (streamBit m p = 1) :: streamBits m (p + 1) n := by
  simp [streamBits, List.range_succ_eq_map, Nat.add_assoc, Nat.add_comm 1]

theorem streamBits_add (m : Memory) (p a b : Nat) :
    streamBits m p (a + b) = streamBits m p a ++ streamBits m (p + a) b := by
  induction a generalizing p with
  | zero => simp [streamBits]
  | succ a ih =>
    rw [Nat.add_right_comm, streamBits_succ, streamBits_succ, ih, List.cons_append, Nat.add_assoc p 1 a,
      Nat.add_comm 1 a]

theorem streamBits_of_zerosAt {m : Memory} {p z : Nat} (h : ZerosAt m p z) :
    streamBits m p z = List.replicate z false := by
  refine List.eq_replicate_iff.mpr ⟨length_streamBits m p z, fun b hb => ?_⟩
  obtain ⟨i, hi, rfl⟩ := List.mem_map.mp hb
  simp [h i (List.mem_range.mp hi)]

/-- A marker after `z` zeros splits the stretch there. -/
theorem streamBits_of_marker {m : Memory} {p z : Nat} (hz : ZerosAt m p z) (hm : streamBit m (p + z) = 1) (n : Nat) :
    streamBits m p (z + (n + 1)) = List.replicate z false ++ true :: streamBits m (p + z + 1) n := by
  rw [streamBits_add, streamBits_succ, streamBits_of_zerosAt hz, hm]
  rfl

/-- `u(n)` of the stream, by the decoder and as the sum of R71. -/
theorem decodeU_streamBits (m : Memory) (n acc p : Nat) (rest : List Bool) :
    decodeU n acc (streamBits m p n ++ rest) = .ok (acc * 2 ^ n + streamValue m p n, rest) := by
  induction n generalizing acc p with
  | zero => simp [decodeU, streamBits, streamValue_zero]
  | succ n ih =>
    have hbit : (decide (streamBit m p = 1)).toNat = streamBit m p := by
      have := streamBit_lt_two m p
      interval_cases streamBit m p <;> rfl
    rw [streamBits_succ, List.cons_append, decodeU, ih, hbit, streamValue_succ]
    congr 2
    ring

/-! ## The four cases of one element, for the decoder -/

section

variable {s : State}

theorem decodeUe_of_codeAt {k : Nat} (h : s.CodeAt k) :
    decodeUe (streamBits s.mem s.off (8 * s.len.toNat - s.off)) =
      .ok (s.codeValue k, streamBits s.mem (s.off + 2 * k + 1) (8 * s.len.toNat - (s.off + 2 * k + 1))) := by
  obtain ⟨hk, hz, hm, hfit⟩ := h
  obtain ⟨n, hn⟩ := Nat.exists_eq_add_of_le hfit
  rw [show 8 * s.len.toNat - s.off = k + (k + n + 1) by omega, streamBits_of_marker hz hm, decodeUe,
    decodeZeros_replicate k (by simp only [ueMaxLz]; omega)]
  simp only [Nat.zero_add]
  rw [streamBits_add, decodeU_streamBits]
  simp only [Nat.zero_mul, Nat.zero_add, State.codeValue]
  rw [show s.off + k + 1 + k = s.off + 2 * k + 1 by omega, show 8 * s.len.toNat - (s.off + 2 * k + 1) = n by omega]

theorem decodeUe_of_tooLongAt (h : s.TooLongAt) :
    decodeUe (streamBits s.mem s.off (8 * s.len.toNat - s.off)) = .error .codeTooLong := by
  obtain ⟨hz, hfit⟩ := h
  obtain ⟨n, hn⟩ := Nat.exists_eq_add_of_le hfit
  rw [show 8 * s.len.toNat - s.off = 31 + n by omega, streamBits_add, streamBits_of_zerosAt hz, decodeUe, ueMaxLz,
    decodeZeros_too_long]

theorem decodeUe_of_countUnderrunAt {z : Nat} (h : s.CountUnderrunAt z) :
    decodeUe (streamBits s.mem s.off (8 * s.len.toNat - s.off)) = .error .truncated := by
  obtain ⟨hz30, hz, hend⟩ := h
  rw [show 8 * s.len.toNat - s.off = z by omega, streamBits_of_zerosAt hz, decodeUe,
    decodeZeros_truncated (by simp only [ueMaxLz]; omega)]

theorem decodeUe_of_suffixUnderrunAt {k : Nat} (h : s.SuffixUnderrunAt k) :
    decodeUe (streamBits s.mem s.off (8 * s.len.toNat - s.off)) = .error .truncated := by
  obtain ⟨hk, hz, hm, hfit, hshort⟩ := h
  obtain ⟨n, hn⟩ := Nat.exists_eq_add_of_le hfit
  rw [show 8 * s.len.toNat - s.off = k + (n + 1) by omega, streamBits_of_marker hz hm, decodeUe,
    decodeZeros_replicate k (by simp only [ueMaxLz]; omega)]
  simp only [Nat.zero_add]
  rw [decodeU_truncated (by rw [length_streamBits]; omega)]

end

end Sys2Proof.Machine

/-! # The obligations on UE and the ue(v) format -/

namespace Sys2Proof.Proofs

open Sys2Proof Sys2Proof.Machine

/-- Settles O25: in each of the four cases of an element both end alike. -/
theorem ueAgreesWithFormatDecoder : Obligations.UeAgreesWithFormatDecoder := by
  intro s hp hoff
  rcases ue_cases_of_present hp hoff with ⟨k, hc, hx⟩ | ⟨hc, hx⟩ | ⟨z, hc, hx⟩ | ⟨k, hc, hx⟩
  · rw [decodeUe_of_codeAt hc]
    exact ⟨_, hx, rfl⟩
  · rw [decodeUe_of_tooLongAt hc]
    exact ⟨_, hx⟩
  · rw [decodeUe_of_countUnderrunAt hc]
    exact ⟨_, hx⟩
  · rw [decodeUe_of_suffixUnderrunAt hc]
    exact ⟨_, hx⟩

/-- Settles O24: the decoder gives `x` back from its code, and UE agrees with the decoder. -/
theorem ueRoundTrip : Obligations.UeRoundTrip := by
  intro s x hx hp hfit hcode
  have hagree := ueAgreesWithFormatDecoder s hp (by omega)
  obtain ⟨n, hn⟩ := Nat.exists_eq_add_of_le hfit
  rw [show 8 * s.len.toNat - s.off = (encodeUe x).length + n by omega, streamBits_add, hcode,
    decodeUe_encodeUe hx] at hagree
  obtain ⟨s', hue, hrest⟩ := hagree
  obtain ⟨k, ⟨_, _, _, hl⟩, _, _, _, rfl⟩ := ue_value hue
  have hlen := congrArg List.length hrest
  simp only [length_streamBits, State.setLz_off, State.setOff_off] at hlen
  have hoff : s.off + 2 * k + 1 = s.off + (encodeUe x).length := by omega
  have hexec : exec .ue s = .next ((s.ueAt (s.off + 2 * k + 1) k).setRet (BitVec.ofNat 32 x)) := by
    rw [exec_ue, hue]
    rfl
  exact ⟨_, hexec, rfl, hoff, rfl, rfl⟩

end Sys2Proof.Proofs

/-! # The bytes of a read (20_memory.md sections 2 and 3) -/

namespace Sys2Proof.Machine

open Sys2Proof

theorem streamBit_of_read_eq_some {m : Memory} {a : Nat} {b : Byte} (h : m.read a = some b) {i : Nat} (hi : i < 8) :
    streamBit m (8 * a + i) = b.toNat / 2 ^ (7 - i) % 2 := by
  have hbit := bitAt_of_read_eq_some (k := 8 * a + i) (by rwa [show (8 * a + i) / 8 = a by omega])
  rw [streamBit, hbit, Option.getD_some, show (8 * a + i) % 8 = i by omega]

/-- The first `j` bits of a byte are its high bits. -/
theorem streamValue_of_read_eq_some {m : Memory} {a : Nat} {b : Byte} (h : m.read a = some b) {j : Nat} (hj : j ≤ 8) :
    streamValue m (8 * a) j = b.toNat / 2 ^ (8 - j) := by
  induction j with
  | zero => simp only [streamValue_zero]; omega
  | succ j ih =>
    have hhalf : b.toNat / 2 ^ (8 - j) = b.toNat / 2 ^ (7 - j) / 2 := by
      rw [Nat.div_div_eq_div_mul, ← Nat.pow_succ, show (7 - j).succ = 8 - j by omega]
    rw [streamValue_add, ih (by omega), streamValue_succ, streamValue_zero, streamBit_of_read_eq_some h hj, hhalf,
      show 8 - (j + 1) = 7 - j by omega]
    omega

theorem toNat_append_byte {w : Nat} (x : BitVec w) (b : Byte) : (x ++ b).toNat = x.toNat * 2 ^ 8 + b.toNat := by
  rw [BitVec.toNat_append, ← Nat.shiftLeft_add_eq_or_of_lt b.isLt, Nat.shiftLeft_eq]

/-- Four bytes from a byte boundary on, the lowest address highest. -/
theorem ofNat_streamValue_word {m : Memory} {a : Nat} {b0 b1 b2 b3 : Byte} (h0 : m.read a = some b0)
    (h1 : m.read (a + 1) = some b1) (h2 : m.read (a + 2) = some b2) (h3 : m.read (a + 3) = some b3) :
    (BitVec.ofNat 32 (streamValue m (8 * a) 32) : Word) = b0 ++ b1 ++ b2 ++ b3 := by
  have byte : ∀ {c : Nat} {b : Byte}, m.read c = some b → streamValue m (8 * c) 8 = b.toNat := fun h => by
    rw [streamValue_of_read_eq_some h le_rfl, Nat.sub_self, Nat.pow_zero, Nat.div_one]
  have hsum : streamValue m (8 * a) (8 + 8 + 8 + 8) = (b0 ++ b1 ++ b2 ++ b3).toNat := by
    rw [streamValue_add, streamValue_add, streamValue_add, byte h0, show 8 * a + 8 = 8 * (a + 1) by omega, byte h1,
      show 8 * a + (8 + 8) = 8 * (a + 2) by omega, byte h2, show 8 * a + (8 + 8 + 8) = 8 * (a + 3) by omega, byte h3,
      toNat_append_byte, toNat_append_byte, toNat_append_byte]
  exact (congrArg _ hsum).trans (BitVec.ofNat_toNat _ _ |>.trans (BitVec.setWidth_eq _))

/-- A run of bits is read alike in a buffer that has the same bits there. -/
theorem State.bits_congr {s : State} {m : Memory} {n k : Nat} (h : ∀ i < n, bitAt m (k + i) = bitAt s.mem (k + i))
    (v : Word) : State.bits { s with mem := m } n k v = s.bits n k v := by
  induction n generalizing k v with
  | zero => rfl
  | succ n ih =>
    have h0 := h 0 (by omega)
    rw [Nat.add_zero] at h0
    have hbit : State.bit { s with mem := m } k = s.bit k := by simp only [State.bit_eq, h0]
    have hrest : ∀ w, State.bits { s with mem := m } n (k + 1) w = s.bits n (k + 1) w :=
      ih fun i hi => by rw [Nat.add_assoc, Nat.add_comm 1]; exact h (i + 1) (by omega)
    simp only [State.bits, hbit, hrest]

theorem exec_readBits_congr {s : State} {n : Nat} {m : Memory}
    (h : ∀ i < n, bitAt m (s.off + i) = bitAt s.mem (s.off + i)) :
    (∀ t, exec (.readBits n) s = .next t → exec (.readBits n) { s with mem := m } = .next { t with mem := m }) ∧
    (∀ f, exec (.readBits n) s = .fault f → exec (.readBits n) { s with mem := m } = .fault f) := by
  have hunder : State.underruns { s with mem := m } n = s.underruns n := rfl
  simp only [exec_readBits, readBits, hunder, State.bits_congr h]
  split
  · split
    · exact ⟨fun t ht => by cases ht; rfl, fun f hf => by cases hf⟩
    · split
      · exact ⟨fun t ht => by cases ht; rfl, fun f hf => by cases hf⟩
      · exact ⟨fun t ht => (by cases ht), fun f hf => hf⟩
  · exact ⟨fun t ht => (by cases ht), fun f hf => (by cases hf)⟩

end Sys2Proof.Machine

/-! # The obligations on single reads and on UE's value -/

namespace Sys2Proof.Proofs

open Sys2Proof Sys2Proof.Machine

/-- Settles O17: both make the same bounds test, and a read of a buffer that is there meets no other end. -/
theorem skipIsDiscardedRead : Obligations.SkipIsDiscardedRead := by
  intro s n h1 h32 hp
  rcases skip_cases n s with ⟨hu, hs⟩ | ⟨hfit, hs⟩
  · rw [hs, readBits_underrun h1 h32 hu]
    exact ⟨fun s' => ⟨nofun, nofun⟩, fun k s' => by simp⟩
  · rw [hs, readBits_present h1 h32 hfit hp]
    exact ⟨fun s' => by simp, fun k s' => ⟨nofun, nofun⟩⟩

/-- Settles O18: the value of a read is the sum of R71, and the bits of a byte sum to the byte. -/
theorem alignedWordIsBigEndian : Obligations.AlignedWordIsBigEndian := by
  intro s a b0 b1 b2 b3 hoff hlen h0 h1 h2 h3
  have hbits : ∀ i < 32, (bitAt s.mem (s.off + i)).isSome = true := by
    intro i hi
    have hread : (s.mem.read ((s.off + i) / 8)).isSome = true := by
      have : (s.off + i) / 8 = a ∨ (s.off + i) / 8 = a + 1 ∨ (s.off + i) / 8 = a + 2 ∨ (s.off + i) / 8 = a + 3 := by
        omega
      rcases this with h | h | h | h <;> simp [h, h0, h1, h2, h3]
    rwa [bitAt, Option.isSome_map]
  rw [exec_readBits, readBits_delivers (by omega) le_rfl (by omega) hbits, hoff, ofNat_streamValue_word h0 h1 h2 h3,
    ← hoff]
  rfl

/-- Settles O19: the count of bytes is arithmetic, and equal bytes have equal bits. -/
theorem readUsesOnlyItsBytes : Obligations.ReadUsesOnlyItsBytes := by
  intro s n m h1 h32
  refine ⟨by omega, by omega, fun hm => exec_readBits_congr fun i hi => ?_⟩
  rw [bitAt, bitAt, hm _ (by omega) (by omega)]

/-- Settles O20: the read can neither underrun nor deliver, and the byte it stops at is neither before nor after the
first absent one. -/
theorem absentByteStopsRead : Obligations.AbsentByteStopsRead := by
  intro s n a h1 h32 hfit hlo hhi habsent hbefore
  have hbit : ∀ i, (s.off + i) / 8 = a → ¬ (bitAt s.mem (s.off + i)).isSome = true := fun i hi => by
    rw [bitAt, hi, habsent]
    nofun
  rcases readBits_cases n s with ⟨hn, _⟩ | ⟨_, _, hu, _⟩ | ⟨_, _, _, hb, _⟩ | ⟨_, _, _, i, hi, hm, _, hb, hx⟩
  · exact absurd ⟨h1, h32⟩ hn
  · omega
  · exact absurd (hb (8 * a - s.off) (by omega)) (hbit _ (by omega))
  · have hle : a ≤ (s.off + i) / 8 := by
      by_contra hlt
      have := hbefore _ (by omega) (not_le.mp hlt)
      simp [hm] at this
    have hge : (s.off + i) / 8 ≤ a := by
      by_contra hlt
      exact hbit (8 * a - s.off) (by omega) (hb _ (by omega))
    rw [exec_readBits, hx, le_antisymm hge hle]
    rfl

/-- Settles O21: a UE that delivers found a code of the class it leaves in `LZ`. -/
theorem ueValueRange : Obligations.UeValueRange := by
  intro s s' v h
  obtain ⟨k, ⟨hk, _⟩, _, _, hv, rfl⟩ := ue_value h
  have hlz : (s.ueAt (s.off + 2 * k + 1) k).lz.toNat = k := by
    rw [State.setLz_lz, BitVec.toNat_ofNat, Nat.mod_eq_of_lt (by omega)]
  rw [hlz, hv]
  exact ⟨hk, rfl, s.codeValue_bounds hk⟩

end Sys2Proof.Proofs

/-! # Where the machine stops (42_sps_parser.md sections 8 and 9) -/

namespace Sys2Proof.Machine

open Sys2Proof

/-! ## S23, read backwards (R165, R166) -/

section

variable {α β : Type}

theorem need_eq_ok {r : FieldReg} {o : Option α} {v : α} : need r o = .ok v ↔ o = some v := by
  cases o <;> simp [need]

theorem except_bind_eq_ok {x : Except Fault α} {g : α → Except Fault β} {b : β} :
    x >>= g = .ok b ↔ ∃ a, x = .ok a ∧ g a = .ok b := by
  cases x <;> simp [bind, Except.bind]

theorem except_pure_eq_ok {a b : α} : (pure a : Except Fault α) = .ok b ↔ a = b := Except.ok.injEq a b ▸ Iff.rfl

end

/-- A size that is delivered has used the flag and the two dimensions, and the offsets if the flag is 1. -/
theorem pictureSize_ok {f : Fields} {size : Word × Word} (hsize : pictureSize f = .ok size) :
    ∃ c w h, f.cwf = some c ∧ f.picw = some w ∧ f.pich = some h ∧
      (c = 1 → ∃ l r t b, f.cleft = some l ∧ f.cright = some r ∧ f.ctop = some t ∧ f.cbot = some b ∧
        size = (cropped w l r, cropped h t b)) := by
  simp only [pictureSize, except_bind_eq_ok, need_eq_ok] at hsize
  obtain ⟨c, hc, w, hw, h, hh, hrest⟩ := hsize
  refine ⟨c, w, h, hc, hw, hh, fun hone => ?_⟩
  simp only [if_pos hone, except_bind_eq_ok, need_eq_ok, except_pure_eq_ok] at hrest
  obtain ⟨l, hl, r, hr, t, ht, b, hb, hval⟩ := hrest
  exact ⟨l, r, t, b, hl, hr, ht, hb, hval.symm⟩

theorem assemble_ok {f : Fields} {r : SpsInfo} (h : assemble f = .ok r) :
    ∃ size ps tf pi li cf bl bc, pictureSize f = .ok size ∧ f.pspace = some ps ∧ f.tier = some tf ∧
      f.pidc = some pi ∧ f.level = some li ∧ f.chroma = some cf ∧ f.bdlm8 = some bl ∧ f.bdcm8 = some bc ∧
      r = ⟨size.1, size.2, ps, tf, pi, li, cf, bitDepth bl, bitDepth bc⟩ := by
  simp only [assemble, except_bind_eq_ok, need_eq_ok, except_pure_eq_ok] at h
  obtain ⟨size, hsize, ps, hps, tf, htf, pi, hpi, li, hli, cf, hcf, bl, hbl, bc, hbc, hval⟩ := h
  exact ⟨size, ps, tf, pi, li, cf, bl, bc, hsize, hps, htf, hpi, hli, hcf, hbl, hbc, hval.symm⟩

/-- A record has used every register but the offsets, and the offsets if the flag is 1. -/
theorem fieldValue_isSome_of_assemble {f : Fields} {rec : SpsInfo} (h : assemble f = .ok rec) (r : FieldReg)
    (hwin : inWindow r = true → f.cwf = some 1) : (fieldValue f r).isSome = true := by
  obtain ⟨_, _, _, _, _, _, _, _, hsize, hps, htf, hpi, hli, hcf, hbl, hbc, _⟩ := assemble_ok h
  obtain ⟨c, _, _, hc, hw, hh, hoffsets⟩ := pictureSize_ok hsize
  by_cases hr : inWindow r = true
  · obtain rfl : c = 1 := Option.some.inj (hc.symm.trans (hwin hr))
    obtain ⟨_, _, _, _, hl, hr', ht, hb, _⟩ := hoffsets rfl
    cases r with
    | cleft | cright | ctop | cbot => simp [fieldValue, hl, hr', ht, hb]
    | _ => cases hr
  · cases r with
    | cleft | cright | ctop | cbot => exact absurd rfl hr
    | _ => simp [fieldValue, hps, htf, hpi, hli, hcf, hbl, hbc, hc, hw, hh]

/-- The one way a computation over the registers can stop: a register that S23 reads holds no value (R13). -/
def StopsOnNoValue (f : Fields) {α : Type} (x : Except Fault α) : Prop :=
  ∀ e, x = .error e → ∃ r, e = .noValue r ∧ fieldValue f r = none ∧ (inWindow r = true → f.cwf = some 1)

section

variable {f : Fields} {α β : Type}

theorem StopsOnNoValue.bind {x : Except Fault α} {g : α → Except Fault β} (hx : StopsOnNoValue f x)
    (hg : ∀ a, x = .ok a → StopsOnNoValue f (g a)) : StopsOnNoValue f (x >>= g) := by
  intro e he
  cases x with
  | error e' =>
    cases he
    exact hx e rfl
  | ok a => exact hg a rfl e he

theorem stopsOnNoValue_pure (a : α) : StopsOnNoValue f (pure a) := nofun

theorem stopsOnNoValue_need (r : FieldReg) {o : Option α} {g : α → Nat} (hr : fieldValue f r = o.map g)
    (hwin : inWindow r = true → f.cwf = some 1) : StopsOnNoValue f (need r o) := by
  intro e he
  cases o with
  | none =>
    cases he
    exact ⟨r, rfl, hr, hwin⟩
  | some v => cases he

theorem stopsOnNoValue_pictureSize (f : Fields) : StopsOnNoValue f (pictureSize f) := by
  refine (stopsOnNoValue_need .cwf rfl nofun).bind fun c hc => ?_
  refine (stopsOnNoValue_need .picw rfl nofun).bind fun w _ => ?_
  refine (stopsOnNoValue_need .pich rfl nofun).bind fun h _ => ?_
  split
  · next hone =>
    have hcwf : f.cwf = some 1 := by rw [need_eq_ok.mp hc, hone]
    refine (stopsOnNoValue_need .cleft rfl fun _ => hcwf).bind fun l _ => ?_
    refine (stopsOnNoValue_need .cright rfl fun _ => hcwf).bind fun r _ => ?_
    refine (stopsOnNoValue_need .ctop rfl fun _ => hcwf).bind fun t _ => ?_
    exact (stopsOnNoValue_need .cbot rfl fun _ => hcwf).bind fun b _ => stopsOnNoValue_pure _
  · exact stopsOnNoValue_pure _

theorem stopsOnNoValue_assemble (f : Fields) : StopsOnNoValue f (assemble f) := by
  refine (stopsOnNoValue_pictureSize f).bind fun size _ => ?_
  refine (stopsOnNoValue_need .pspace rfl nofun).bind fun ps _ => ?_
  refine (stopsOnNoValue_need .tier rfl nofun).bind fun tf _ => ?_
  refine (stopsOnNoValue_need .pidc rfl nofun).bind fun pi _ => ?_
  refine (stopsOnNoValue_need .level rfl nofun).bind fun li _ => ?_
  refine (stopsOnNoValue_need .chroma rfl nofun).bind fun cf _ => ?_
  refine (stopsOnNoValue_need .bdlm8 rfl nofun).bind fun bl _ => ?_
  exact (stopsOnNoValue_need .bdcm8 rfl nofun).bind fun bc _ => stopsOnNoValue_pure _

end

theorem exec_s23_eq_fault {s : State} {e : Fault} : exec .s23Assemble s = .fault e ↔ assemble s.x = .error e := by
  simp only [exec, execS23Assemble]
  cases assemble s.x <;> simp

/-- R165, R167: the difference where it is not negative, else it plus `2^32`; the sum of two ue(v) values stays below
`2^32`. -/
theorem toNat_cropped {pic a b : Word} (ha : a.toNat ≤ 2 ^ 31 - 2) (hb : b.toNat ≤ 2 ^ 31 - 2) :
    (cropped pic a b).toNat =
      if a.toNat + b.toNat ≤ pic.toNat then pic.toNat - (a.toNat + b.toNat)
      else pic.toNat + 2 ^ 32 - (a.toNat + b.toNat) := by
  rw [cropped, BitVec.toNat_sub, BitVec.toNat_add]
  have := pic.isLt
  split <;> omega

theorem toNat_bitDepth {v : Word} (hv : v.toNat ≤ 2 ^ 31 - 2) : (bitDepth v).toNat = v.toNat + 8 := by
  rw [bitDepth, BitVec.toNat_add, show (8 : Word).toNat = 8 from rfl]
  omega

/-- What a register holds, as a word and as a number. -/
theorem eq_toNat_of_map_eq {w n : Nat} {o : Option (BitVec w)} {v : BitVec w} (ho : o = some v)
    (hn : o.map BitVec.toNat = some n) : n = v.toNat := by
  subst ho
  exact (Option.some.inj hn).symm

/-! ## The stops of a transition -/

theorem State.place_ne_fault (s : State) (bytes : List Byte) (e : Fault) : s.place bytes ≠ .fault e := by
  unfold State.place
  split <;> nofun

/-- A row of a running parse with the invariant stops at a byte the host never placed, and nowhere else. -/
theorem Inv.stepRow_fault {s : State} {i : Instr} {e : Fault} (h : Inv s) (hd : decodeStep s.step.code = .ok i)
    (he : exec i s = .fault e) : ∃ a, e = .byteAbsent a ∧ a < s.len.toNat ∧ s.mem.read a = none := by
  obtain ⟨_, hrow, h23⟩ := decodeStep_ok hd
  by_cases hs : s.step = .s23
  · obtain ⟨r, hr⟩ := h.fields.assemble_at_s23 hs
    rw [h23.mpr hs, exec_s23_eq_fault, hr] at he
    cases he
  · exact exec_stepRow_fault hrow (hs ∘ h23.mp) he

end Sys2Proof.Machine

/-! # The obligations on where the machine stops -/

namespace Sys2Proof.Proofs

open Sys2Proof Sys2Proof.Machine

/-- Settles O46, by the kind of the transition: the invariant rules out S0 and a missing register, and the rest is the
host's. -/
theorem onlyTheHostCausesStops : Obligations.OnlyTheHostCausesStops := by
  intro s h
  rcases step_cases s with ⟨_, _, _, _, hx⟩ | ⟨bytes, rest, hh, hx⟩ | ⟨len, rest, hh, hx⟩ |
    ⟨_, ⟨_, hx⟩ | ⟨hb, h0, _⟩ | ⟨_, i, hd, hx⟩⟩
  · rw [hx]
    exact ⟨nofun, nofun⟩
  · rw [hx]
    refine ⟨fun e he => absurd he (State.place_ne_fault _ _ _), fun r he => .inr ⟨bytes, rest, hh, ?_⟩⟩
    by_cases hb : s.phase = .busy
    · rw [State.place_of_busy (s := s.consume) hb] at he
      cases he
      exact ⟨rfl, hb⟩
    · rw [State.place_of_not_busy (s := s.consume) hb] at he
      cases he
  · rw [hx]
    rcases exec_start_cases len s.consume with ⟨_, he⟩ | ⟨_, _, he⟩ | ⟨_, hl, he⟩ <;> rw [he]
    · exact ⟨nofun, nofun⟩
    · exact ⟨nofun, nofun⟩
    · exact ⟨nofun, fun r hr => .inl ⟨len, rest, hh, (Host.Outcome.refused.inj hr).symm, hl⟩⟩
  · rw [hx]
    exact ⟨nofun, nofun⟩
  · obtain ⟨hpos, _, _⟩ := h.phase.of_busy hb
    rw [h0] at hpos
    exact absurd hpos (by decide)
  · obtain ⟨_, hrow, _⟩ := decodeStep_ok hd
    rw [hx]
    exact ⟨fun e he => h.consume.stepRow_fault hd he, fun r he => absurd he (exec_stepRow_not_refused hrow)⟩

/-- Settles O34: values of ue(v) elements are below `2^31 - 1`, so sums and bit depths fit a word; the subtraction is
`toNat_cropped`. -/
theorem assembleArithmetic : Obligations.AssembleArithmetic := by
  intro s t rec w h l r t b bl bc hv he hout hw hh hbl hbc
  obtain ⟨rec', hrec, rfl⟩ := execS23_next he
  obtain rfl : rec' = rec := Option.some.inj hout
  obtain ⟨size, _, _, _, _, _, blw, bcw, hsize, _, _, _, _, _, hblw, hbcw, rfl⟩ := assemble_ok hrec
  obtain ⟨c, pw, ph, hc, hpw, hph, hoffsets⟩ := pictureSize_ok hsize
  obtain rfl := eq_toNat_of_map_eq hblw hbl
  obtain rfl := eq_toNat_of_map_eq hbcw hbc
  obtain rfl := eq_toNat_of_map_eq hpw hw
  obtain rfl := eq_toNat_of_map_eq hph hh
  refine ⟨toNat_bitDepth (hv _ _ hbl), toNat_bitDepth (hv _ _ hbc), fun hcwf hl hr ht hb => ?_⟩
  have hone : c = 1 := BitVec.eq_of_toNat_eq (eq_toNat_of_map_eq hc hcwf).symm
  obtain ⟨lw, rw', tw, bw, hlw, hrw, htw, hbw, rfl⟩ := hoffsets hone
  obtain rfl := eq_toNat_of_map_eq hlw hl
  obtain rfl := eq_toNat_of_map_eq hrw hr
  obtain rfl := eq_toNat_of_map_eq htw ht
  obtain rfl := eq_toNat_of_map_eq hbw hb
  have hl31 := hv _ _ hl
  have hr31 := hv _ _ hr
  have ht31 := hv _ _ ht
  have hb31 := hv _ _ hb
  exact ⟨by omega, by omega, toNat_cropped hl31 hr31, toNat_cropped ht31 hb31⟩

/-- Settles O35: `assemble` is a sequence of reads, each of which stops where its register holds no value; and a record
has used them all. -/
theorem assembleStopsOnNoValue : Obligations.AssembleStopsOnNoValue := by
  intro s
  refine ⟨fun e he => stopsOnNoValue_assemble s.x e (exec_s23_eq_fault.mp he), fun r hr hwin => ?_⟩
  cases ha : assemble s.x with
  | error e => exact ⟨e, exec_s23_eq_fault.mpr ha⟩
  | ok rec =>
    have hsome := fieldValue_isSome_of_assemble ha r hwin
    rw [hr] at hsome
    cases hsome

/-- Settles O10: the third of the three ends of a START. -/
theorem startRefusesTooLargeLen : Obligations.StartRefusesTooLargeLen := by
  intro s len hb hl
  rcases exec_start_cases len s with ⟨hbusy, _⟩ | ⟨_, hfit, _⟩ | ⟨_, _, hx⟩
  · exact absurd hbusy hb
  · omega
  · exact hx

/-- Settles O43: at reset every register is cleared, and no bound is on the cursor outside a parse. -/
theorem resetMeetsInvariant : Obligations.ResetMeetsInvariant :=
  ⟨inv_of_cleared rfl (Nat.zero_le 1) ⟨rfl, rfl, rfl⟩ ⟨by decide, by decide⟩ rfl, nofun, nofun, nofun, nofun⟩

end Sys2Proof.Proofs

/-! # One shape for the rows S1 to S22 (42_sps_parser.md R142) -/

namespace Sys2Proof

/-- The least length of an element (R71 to R75). -/
def Format.minBits : Format → Nat
  | .empty => 0
  | .x n | .u n => n
  | .ue => 1

/-- The greatest length of an element (R71 to R75): a ue(v) code has at most 30 zeros before the marker. -/
def Format.maxBits : Format → Nat
  | .empty => 0
  | .x n | .u n => n
  | .ue => 61

end Sys2Proof

namespace Sys2Proof.Machine

open Sys2Proof

/-- A row obtains one element, of the format the table gives it; what is passed over counts as 0. -/
def State.take (s : State) : Format → OpResult Word
  | .empty => .value 0 s
  | .x n => (skip n s).andThen fun _ s' => .value 0 s'
  | .u n => readBits n s
  | .ue => ue s

/-- What a row does with its element: the destination first, then the successor. -/
def State.finishRow (s : State) (i : Instr) (v : Word) : State :=
  (s.writeDest (destOf i) v).goto (follow i (s.writeDest (destOf i) v))

section

variable (s : State) (i : Instr) (v : Word)

@[simp] theorem State.finishRow_cfg : (s.finishRow i v).cfg = s.cfg := by simp [State.finishRow]
@[simp] theorem State.finishRow_phase : (s.finishRow i v).phase = s.phase := by simp [State.finishRow]
@[simp] theorem State.finishRow_err : (s.finishRow i v).err = s.err := by simp [State.finishRow]
@[simp] theorem State.finishRow_step : (s.finishRow i v).step = follow i (s.writeDest (destOf i) v) := rfl
@[simp] theorem State.finishRow_off : (s.finishRow i v).off = s.off := by simp [State.finishRow]
@[simp] theorem State.finishRow_len : (s.finishRow i v).len = s.len := by simp [State.finishRow]
@[simp] theorem State.finishRow_x : (s.finishRow i v).x = (s.writeDest (destOf i) v).x := rfl
@[simp] theorem State.finishRow_out : (s.finishRow i v).out = s.out := by simp [State.finishRow]
@[simp] theorem State.finishRow_mem : (s.finishRow i v).mem = s.mem := by simp [State.finishRow]
@[simp] theorem State.finishRow_host : (s.finishRow i v).host = s.host := by simp [State.finishRow]

end

theorem OpResult.finish_andThen_value {α β : Type} (r : OpResult α) (w : β) (f : β → State → State) :
    (r.andThen fun _ s => .value w s).finish f = r.finish fun _ s => f w s := by
  cases r <;> rfl

/-- The rows S1 to S22, by the format and the destination of the table. -/
theorem exec_eq_take {i : Instr} {s : State} (h : isStepRow i = true) (h23 : i ≠ .s23Assemble) :
    exec i s = (s.take (i.format s.cfg.nalSkipBits.val)).finish fun v s' => s'.finishRow i v := by
  cases i with
  | start | readBits | skip | ue => cases h
  | s23Assemble => exact absurd rfl h23
  | s1SkipN | s8Skip32 | s9Skip16 => 
    rw [Instr.format, State.take, OpResult.finish_andThen_value]
    rfl
  | _ => rfl

/-! ## What obtaining an element does -/

/-- An element that is obtained moves `OFF` by its length, and nothing else but `LZ`. -/
theorem State.take_value {s s' : State} {f : Format} {v : Word} (h : s.take f = .value v s') :
    ∃ p l, s' = (s.setOff p).setLz l ∧ s.off + f.minBits ≤ p ∧ p ≤ s.off + f.maxBits := by
  cases f with
  | empty =>
    cases h
    exact ⟨s.off, s.lz, rfl, le_rfl, le_rfl⟩
  | x n =>
    rcases skip_cases n s with ⟨_, hx⟩ | ⟨_, hx⟩ <;> rw [State.take, hx] at h <;> cases h
    exact ⟨s.off + n, s.lz, rfl, le_rfl, le_rfl⟩
  | u n =>
    obtain ⟨_, _, _, _, rfl, _⟩ := readBits_value h
    exact ⟨s.off + n, s.lz, rfl, le_rfl, le_rfl⟩
  | ue =>
    obtain ⟨k, ⟨hk, _⟩, _, _, _, rfl⟩ := ue_value h
    exact ⟨_, _, rfl, by simp only [Format.minBits]; omega, by simp only [Format.maxBits]; omega⟩

/-- An element that raises has moved `OFF` no further than its greatest length. -/
theorem State.take_raised {s s' : State} {f : Format} {e : ErrKind} (h : s.take f = .raised e s') :
    ∃ p l, s' = (s.setOff p).setLz l ∧ s.off ≤ p ∧ p ≤ s.off + f.maxBits := by
  cases f with
  | empty => cases h
  | x n =>
    rcases skip_cases n s with ⟨_, hx⟩ | ⟨_, hx⟩ <;> rw [State.take, hx] at h <;> cases h
    exact ⟨s.off, s.lz, rfl, le_rfl, Nat.le_add_right _ _⟩
  | u n =>
    obtain ⟨_, _, _, _, rfl⟩ := readBits_raised h
    exact ⟨_, _, rfl, le_rfl, Nat.le_add_right _ _⟩
  | ue =>
    rcases ue_cases s with ⟨_, _, _, hx⟩ | ⟨_, _, hx⟩ | ⟨z, _, _, _, _, _, hx⟩ |
      ⟨k, ⟨_, _⟩, _, hx⟩ | ⟨_, _, _, _, hx⟩ <;>
      rw [State.take, hx] at h <;> cases h
    all_goals exact ⟨_, _, rfl, by omega, by simp only [Format.maxBits]; omega⟩

/-! ## What a transition leaves -/

/-- The row of `STEP` completes (S23), goes on past its element, or aborts. -/
theorem exec_row_next {i : Instr} {s t : State} (hd : decodeStep s.step.code = .ok i) (he : exec i s = .next t) :
    (s.step = .s23 ∧ ∃ r, assemble s.x = .ok r ∧ t = s.complete r) ∨
    (s.step ≠ .s23 ∧ ∃ v s', s.take (i.format s.cfg.nalSkipBits.val) = .value v s' ∧ t = s'.finishRow i v) ∨
    (s.step ≠ .s23 ∧ ∃ e s', s.take (i.format s.cfg.nalSkipBits.val) = .raised e s' ∧ t = s'.abort e) := by
  obtain ⟨_, hrow, h23⟩ := decodeStep_ok hd
  by_cases hs : s.step = .s23
  · rw [h23.mpr hs] at he
    exact .inl ⟨hs, execS23_next he⟩
  · rw [exec_eq_take hrow (hs ∘ h23.mp)] at he
    rcases OpResult.finish_eq_next he with hv | hr
    · exact .inr (.inl ⟨hs, hv⟩)
    · exact .inr (.inr ⟨hs, hr⟩)

/-- What a transition that answers a next state has made of the registers a parse is followed by. -/
theorem step_next {s t : State} (he : step s = .next t) :
    t.phase = .idle ∨ (t.cfg = s.cfg ∧ t.phase = .busy ∧ t.step = .s1 ∧ t.off = 0) ∨
    (t.cfg = s.cfg ∧ t.phase = s.phase ∧ t.step = s.step ∧ t.off = s.off) ∨
    (s.phase = .busy ∧ ∃ i, decodeStep s.step.code = .ok i ∧ exec i s.consume = .next t) := by
  rcases step_cases s with ⟨_, _, _, _, hx⟩ | ⟨_, _, _, hx⟩ | ⟨len, _, _, hx⟩ |
    ⟨_, ⟨_, hx⟩ | ⟨_, _, hx⟩ | ⟨hb, i, hd, hx⟩⟩ <;> rw [hx] at he
  · cases he
    exact .inl rfl
  · obtain ⟨_, rfl⟩ := State.place_next he
    exact .inr (.inr (.inl ⟨rfl, rfl, rfl, rfl⟩))
  · rcases exec_start_cases len s.consume with ⟨_, hs⟩ | ⟨_, _, hs⟩ | ⟨_, _, hs⟩ <;> rw [hs] at he <;> cases he
    · exact .inr (.inr (.inl ⟨rfl, rfl, rfl, rfl⟩))
    · exact .inr (.inl ⟨rfl, rfl, rfl, rfl⟩)
  · cases he
    exact .inr (.inr (.inl ⟨rfl, rfl, rfl, rfl⟩))
  · cases he
  · exact .inr (.inr (.inr ⟨hb, i, hd, he⟩))

/-! ## The two tables of 70_reset_and_hazards.md section 5, row by row -/

/-- R236: the offset of a step of the fixed part is that of the step before and the length of its element. -/
theorem prefixOffset_follow {st : StepName} {i : Instr} (hd : decodeStep st.code = .ok i) (h23 : st ≠ .s23) (u : State)
    {N q : Nat} (hq : prefixOffset N (follow i u) = some q) :
    ∃ p, prefixOffset N st = some p ∧ q = p + (i.format N).minBits ∧ (i.format N).minBits = (i.format N).maxBits := by
  cases st with
  | s0 => cases hd
  | s23 => exact absurd rfl h23
  | s1 | s2 | s3 | s4 | s5 | s6 | s7 | s8 | s9 | s10 =>
    cases hd
    cases hq
    exact ⟨_, rfl, by simp [Instr.format, Format.minBits, compatSkipBits, constraintSkipBits], rfl⟩
  | s12 =>
    cases hd
    rw [follow, afterChroma_eq] at hq
    split at hq <;> cases hq
  | s16 =>
    cases hd
    rw [follow, afterCwf_eq] at hq
    split at hq <;> cases hq
  | s11 | s13 | s14 | s15 | s17 | s18 | s19 | s20 | s21 | s22 =>
    cases hd
    cases hq

/-- R237: the bounds of a step leave room for the shortest and the longest element of the step before. S12
goes on to S13 with a 5-bit code only, by `ue_value_three`. -/
theorem consumedBounds_follow {st : StepName} {i : Instr} (hd : decodeStep st.code = .ok i) (h23 : st ≠ .s23)
    (u : State) (h13 : st = .s12 → u.x.chroma ≠ some 3) (N : Nat) :
    (consumedBounds N (follow i u)).1 ≤ (consumedBounds N st).1 + (i.format N).minBits ∧
    (consumedBounds N st).2 + (i.format N).maxBits ≤ (consumedBounds N (follow i u)).2 := by
  cases st with
  | s0 => cases hd
  | s23 => exact absurd rfl h23
  | s12 =>
    cases hd
    rw [follow, afterChroma_eq, if_neg (h13 rfl)]
    simp [consumedBounds, Instr.format, Format.minBits, Format.maxBits]
  | s16 =>
    cases hd
    rw [follow, afterCwf_eq]
    split <;> simp [consumedBounds, Instr.format, Format.minBits, Format.maxBits]
  | _ =>
    cases hd
    simp [consumedBounds, follow, Instr.format, Format.minBits, Format.maxBits, compatSkipBits, constraintSkipBits]

/-- No element takes a parse beyond the bound of R237. -/
theorem consumedBounds_add_maxBits_le {st : StepName} {i : Instr} (hd : decodeStep st.code = .ok i) (h23 : st ≠ .s23)
    (N : Nat) : (consumedBounds N st).2 + (i.format N).maxBits ≤ N + 683 := by
  cases st with
  | s0 => cases hd
  | s23 => exact absurd rfl h23
  | _ =>
    cases hd
    simp [consumedBounds, Instr.format, Format.maxBits, compatSkipBits, constraintSkipBits]

/-- The code of 3 is 5 bits long (R237). -/
theorem ue_value_three {s s' : State} (h : ue s = .value 3 s') : s'.off = s.off + 5 := by
  obtain ⟨k, ⟨hk, _⟩, _, _, hv, rfl⟩ := ue_value h
  obtain ⟨hlo, hhi, _⟩ := s.codeValue_bounds hk
  rw [← hv] at hlo hhi
  obtain rfl : 2 = k := log2_succ_eq_iff.mpr ⟨hlo, hhi⟩
  rfl

/-- A row that goes on leaves the cursor between the bounds of its successor. -/
theorem consumedBounds_finishRow {s s' : State} {i : Instr} {v : Word} (hd : decodeStep s.step.code = .ok i)
    (h23 : s.step ≠ .s23) {N : Nat} (hv : s.take (i.format N) = .value v s')
    (hlo : (consumedBounds N s.step).1 ≤ s.off) (hhi : s.off ≤ (consumedBounds N s.step).2) :
    (consumedBounds N (s'.finishRow i v).step).1 ≤ s'.off ∧ s'.off ≤ (consumedBounds N (s'.finishRow i v).step).2 := by
  by_cases h13 : s.step = .s12 ∧ (s'.writeDest (destOf i) v).x.chroma = some 3
  · obtain ⟨hs, hthree⟩ := h13
    rw [hs] at hd hlo hhi
    cases hd
    obtain rfl : v = 3 := Option.some.inj hthree
    have hfive := ue_value_three hv
    rw [State.finishRow_step, follow, afterChroma_eq, if_pos hthree]
    simp only [consumedBounds] at hlo hhi ⊢
    omega
  · obtain ⟨p, l, rfl, hmin, hmax⟩ := State.take_value hv
    obtain ⟨hb1, hb2⟩ := consumedBounds_follow hd h23 _ (fun hs hthree => h13 ⟨hs, hthree⟩) N
    simp only [State.finishRow_step, State.setLz_off, State.setOff_off]
    exact ⟨by omega, by omega⟩

/-- A row of the fixed part moves `OFF` by the length of its element, as the offsets of R236 do, and no later row goes
back into it. -/
theorem PrefixInv.row {s t : State} {i : Instr} (h : PrefixInv s) (hb : s.phase = .busy)
    (hd : decodeStep s.step.code = .ok i) (he : exec i s = .next t) : PrefixInv t := by
  rcases exec_row_next hd he with ⟨_, r, _, rfl⟩ | ⟨h23, v, s', hv, rfl⟩ | ⟨_, e, s', _, rfl⟩
  · nofun
  · obtain ⟨p, l, rfl, hmin, hmax⟩ := State.take_value hv
    intro _ q hq
    rw [State.finishRow_cfg, State.setLz_cfg, State.setOff_cfg] at hq
    obtain ⟨q0, hq0, rfl, heq⟩ := prefixOffset_follow hd h23 _ hq
    have hoff := h hb q0 hq0
    rw [State.finishRow_off, State.setLz_off, State.setOff_off]
    omega
  · nofun

/-- Every row's element fits between the bounds of its step and those of what comes next (R237). -/
theorem ConsumptionInv.row {s t : State} {i : Instr} (h : ConsumptionInv s) (hb : s.phase = .busy)
    (hd : decodeStep s.step.code = .ok i) (he : exec i s = .next t) : ConsumptionInv t := by
  obtain ⟨hlo, hhi⟩ := h.1 hb
  rcases exec_row_next hd he with ⟨h23, r, _, rfl⟩ | ⟨h23, v, s', hv, rfl⟩ | ⟨h23, e, s', hr, rfl⟩
  · rw [h23] at hlo hhi
    exact ⟨nofun, fun _ => ⟨hlo, hhi⟩, nofun⟩
  · have hbounds := consumedBounds_finishRow hd h23 hv hlo hhi
    obtain ⟨p, l, rfl, _, _⟩ := State.take_value hv
    simpa [ConsumptionInv, hb] using hbounds
  · obtain ⟨p, l, rfl, _, hmax⟩ := State.take_raised hr
    have hend := consumedBounds_add_maxBits_le hd h23 s.cfg.nalSkipBits.val
    have hp : p ≤ s.cfg.nalSkipBits.val + 683 := by omega
    exact ⟨nofun, nofun, fun _ => hp⟩

end Sys2Proof.Machine

/-! # The obligations on what a parse has consumed -/

namespace Sys2Proof.Proofs

open Sys2Proof Sys2Proof.Machine

/-- Settles O45, by what `step_next` says a transition can be: START stands at offset 0, and a row is
`PrefixInv.row`. -/
theorem everyStepKeepsPrefixOffsets : Obligations.EveryStepKeepsPrefixOffsets := by
  intro s t h he
  rcases step_next he with hidle | ⟨_, _, hstep, hoff⟩ | ⟨hcfg, hphase, hstep, hoff⟩ | ⟨hb, i, hd, hx⟩
  · intro hb
    rw [hidle] at hb
    cases hb
  · intro _ q hq
    rw [hstep] at hq
    cases hq
    exact hoff
  · rw [PrefixInv, hcfg, hphase, hstep, hoff]
    exact h
  · exact PrefixInv.row (s := s.consume) h hb hd hx

/-- Settles O52, by what `step_next` says a transition can be: START has consumed nothing, and a row is
`ConsumptionInv.row`. -/
theorem everyStepKeepsConsumptionBounds : Obligations.EveryStepKeepsConsumptionBounds := by
  intro s t h he
  rcases step_next he with hidle | ⟨_, hbusy, hstep, hoff⟩ | ⟨hcfg, hphase, hstep, hoff⟩ | ⟨hb, i, hd, hx⟩
  · simp [ConsumptionInv, hidle]
  · simp [ConsumptionInv, hbusy, hstep, hoff, consumedBounds]
  · rw [ConsumptionInv, hcfg, hphase, hstep, hoff]
    exact h
  · exact ConsumptionInv.row (s := s.consume) h hb hd hx

end Sys2Proof.Proofs

/-! # Runs without a host move (42_sps_parser.md R142, 60_exceptions.md R206) -/

namespace Sys2Proof.Machine

open Sys2Proof

/-- With no host move a transition is a turn of the sequencer. -/
theorem step_of_host_nil {s : State} (h : s.host = []) :
    (s.phase ≠ .busy ∧ step s = .next s) ∨
    (s.phase = .busy ∧ s.step = .s0 ∧ step s = .fault .noStep) ∨
    (s.phase = .busy ∧ ∃ i, decodeStep s.step.code = .ok i ∧ step s = exec i s) := by
  rcases step_cases s with ⟨_, _, _, hh, _⟩ | ⟨_, _, hh, _⟩ | ⟨_, _, hh, _⟩ | ⟨_, hturn⟩
  · simp [h] at hh
  · simp [h] at hh
  · simp [h] at hh
  · rwa [consume_of_host_nil h] at hturn

theorem step_of_not_busy {s : State} (hh : s.host = []) (hb : s.phase ≠ .busy) : step s = .next s := by
  rcases step_of_host_nil hh with ⟨_, hx⟩ | ⟨hbusy, _⟩ | ⟨hbusy, _⟩
  · exact hx
  · exact absurd hbusy hb
  · exact absurd hbusy hb

/-- Outside `BUSY` nothing moves any more. -/
theorem runSteps_of_not_busy {s : State} (hh : s.host = []) (hb : s.phase ≠ .busy) (k : Nat) :
    runSteps k s = .next s := by
  induction k with
  | zero => rfl
  | succ k ih => rw [runSteps_succ_of_step (step_of_not_busy hh hb), ih]

theorem runSteps_succ_of_fault {s : State} {e : Fault} (h : step s = .fault e) (k : Nat) :
    runSteps (k + 1) s = .fault e := by
  have hcore : Host.Core.step core s = .fault e := h
  simp only [runSteps, Host.Core.run, hcore]
  rfl

theorem runSteps_succ_eq_next {s t : State} {k : Nat} (h : runSteps (k + 1) s = .next t) :
    ∃ u, step s = .next u ∧ runSteps k u = .next t := by
  cases hx : step s with
  | next u => exact ⟨u, rfl, by rwa [runSteps_succ_of_step hx] at h⟩
  | fault e =>
    rw [runSteps_succ_of_fault hx] at h
    cases h
  | refused r =>
    have hcore : Host.Core.step core s = .refused r := hx
    simp only [runSteps, Host.Core.run, hcore] at h
    cases h

/-- A transition without a host move is a row of the running parse, or none. -/
theorem step_next_of_host_nil {s t : State} (hh : s.host = []) (he : step s = .next t) :
    (s.phase ≠ .busy ∧ t = s) ∨ (s.phase = .busy ∧ ∃ i, decodeStep s.step.code = .ok i ∧ exec i s = .next t) := by
  rcases step_of_host_nil hh with ⟨hb, hx⟩ | ⟨_, _, hx⟩ | ⟨hb, i, hd, hx⟩ <;> rw [hx] at he
  · exact .inl ⟨hb, (Host.Outcome.next.inj he).symm⟩
  · cases he
  · exact .inr ⟨hb, i, hd, he⟩

/-- No row puts a move in the host's store. -/
theorem host_nil_of_step {s t : State} (hh : s.host = []) (he : step s = .next t) : t.host = [] := by
  rcases step_next_of_host_nil hh he with ⟨_, rfl⟩ | ⟨_, i, hd, hx⟩
  · exact hh
  · rcases exec_row_next hd hx with ⟨_, r, _, rfl⟩ | ⟨_, v, s', hv, rfl⟩ | ⟨_, e, s', hr, rfl⟩
    · exact hh
    · obtain ⟨p, l, rfl, _⟩ := State.take_value hv
      simpa using hh
    · obtain ⟨p, l, rfl, _⟩ := State.take_raised hr
      exact hh

theorem mem_eq_of_step {s t : State} (hh : s.host = []) (he : step s = .next t) : t.mem = s.mem := by
  obtain ⟨_, hmem | ⟨_, _, hplace⟩⟩ := step_keeps_cfg_mem he
  · exact hmem
  · rw [hh] at hplace
    cases hplace

theorem off_le_of_runSteps {s t : State} {k : Nat} (hh : s.host = []) (he : runSteps k s = .next t) :
    s.off ≤ t.off := by
  induction k generalizing s with
  | zero =>
    cases he
    exact le_rfl
  | succ k ih =>
    obtain ⟨u, hx, hrun⟩ := runSteps_succ_eq_next he
    exact (Proofs.cursorNeverGoesBack s u hh hx).trans (ih (host_nil_of_step hh hx) hrun)

end Sys2Proof.Machine

/-! # Bits after the cursor (20_memory.md section 6) -/

namespace Sys2Proof.Machine

open Sys2Proof

theorem streamBit_congr {m m' : Memory} {p : Nat} (h : bitAt m' p = bitAt m p) : streamBit m' p = streamBit m p := by
  rw [streamBit, streamBit, h]

theorem streamValue_congr {m m' : Memory} {p n : Nat} (h : ∀ i < n, bitAt m' (p + i) = bitAt m (p + i)) :
    streamValue m' p n = streamValue m p n := by
  refine Finset.sum_congr rfl fun i hi => ?_
  rw [streamBit_congr (h i (Finset.mem_range.mp hi))]

/-- A suffix whose bits are all there is delivered, whatever else the buffer holds. -/
theorem ueSuffix_delivers {s : State} {k : Nat} (hk : k ≤ 30) (hlz : s.lz = BitVec.ofNat 5 k)
    (hfit : s.off + k ≤ 8 * s.len.toNat) (hb : ∀ i < k, (bitAt s.mem (s.off + i)).isSome = true) :
    ueSuffix s = .value (BitVec.ofNat 32 (2 ^ k - 1 + streamValue s.mem s.off k)) (s.setOff (s.off + k)) := by
  rcases ueSuffix_cases s k hk hlz (by omega) with ⟨_, _, hx⟩ | ⟨hu, _⟩ | ⟨a, _, _, _, hx⟩
  · exact hx
  · omega
  · have hkn : s.lz.toNat = k := by rw [hlz, BitVec.toNat_ofNat, Nat.mod_eq_of_lt (by omega)]
    unfold ueSuffix at hx
    split at hx
    · cases hx
    · next hne =>
      have hpos : k ≠ 0 := by
        rintro rfl
        exact hne hlz
      rw [hkn, readBits_delivers (by omega) (by omega) hfit hb] at hx
      cases hx

/-- R120 without `State.Present`: a whole code that is there is decoded, whatever else the buffer holds. -/
theorem ue_of_code_bits {s : State} {k : Nat} (hc : s.CodeAt k)
    (hb : ∀ i < 2 * k + 1, (bitAt s.mem (s.off + i)).isSome = true) :
    ue s = .value (BitVec.ofNat 32 (s.codeValue k)) (s.ueAt (s.off + 2 * k + 1) k) := by
  obtain ⟨hk, hz, hm, hfit⟩ := hc
  have hcount : countZeros (ueMaxLz + 1) (s.setLz 0) = .value () (s.ueAt (s.off + k + 1) k) := by
    rcases countZeros_cases (ueMaxLz + 1) (s.setLz 0) with ⟨j, _, _, _, hzj, hmj, hx⟩ | ⟨_, _, hz31, _⟩ |
      ⟨z, hz31, hu, _, _, hzz, _⟩ | ⟨i, _, habsent, _, _, _, hzi, _⟩
    · obtain rfl := zeros_before_marker_unique hzj hmj hz hm
      rw [hx, State.setLz_lz, show (0 : BitVec 5) + BitVec.ofNat 5 j = BitVec.ofNat 5 j from BitVec.zero_add _]
      rfl
    · have := hz31.le_of_streamBit_eq_one hm
      simp only [ueMaxLz] at this
      omega
    · have := hzz.le_of_streamBit_eq_one hm
      simp only [State.setLz_len, State.setLz_off] at hu
      omega
    · have hle := hzi.le_of_streamBit_eq_one hm
      have hthere := hb i (by omega)
      rw [show bitAt s.mem (s.off + i) = none from bitAt_eq_none.mpr habsent] at hthere
      cases hthere
  have hsuffix := ueSuffix_delivers (s := s.ueAt (s.off + k + 1) k) hk rfl
    (show s.off + k + 1 + k ≤ 8 * s.len.toNat by omega) fun i hi => by
      have hthere := hb (k + 1 + i) (by omega)
      rwa [← Nat.add_assoc, ← Nat.add_assoc] at hthere
  rw [ue, hcount, OpResult.andThen_value, hsuffix, show s.off + 2 * k + 1 = s.off + k + 1 + k by omega]
  rfl

/-- The same block on another buffer, of another length. -/
def State.onBuffer (s : State) (m : Memory) (len : Word) : State := { s with mem := m, len := len }

section

variable {s s' t : State} {m : Memory} {len : Word}

/-- An element that is obtained depends on no bit at or after the cursor it leaves. -/
theorem State.take_onBuffer {f : Format} {v : Word} (h : s.take f = .value v s') (hend : s'.off ≤ 8 * len.toNat)
    (hbits : ∀ j, s.off ≤ j → j < s'.off → bitAt m j = bitAt s.mem j) :
    (s.onBuffer m len).take f = .value v (s'.onBuffer m len) := by
  cases f with
  | empty =>
    cases h
    rfl
  | x n =>
    rcases skip_cases n s with ⟨_, hx⟩ | ⟨_, hx⟩ <;> rw [State.take, hx] at h <;> cases h
    rw [State.take, skip_passes (s := s.onBuffer m len) hend]
    rfl
  | u n =>
    obtain ⟨h1, h32, _, hb, rfl, rfl, _⟩ := readBits_value h
    have hsame : ∀ i < n, bitAt m (s.off + i) = bitAt s.mem (s.off + i) := fun i hi =>
      hbits _ (by omega) (Nat.add_lt_add_left hi _)
    rw [State.take, readBits_delivers (s := s.onBuffer m len) h1 h32 hend fun i hi => (hsame i hi).symm ▸ hb i hi,
      ← streamValue_congr hsame]
    rfl
  | ue =>
    obtain ⟨k, ⟨hk, hz, hm, _⟩, hb, rfl, _, rfl⟩ := ue_value h
    have hsame : ∀ i < 2 * k + 1, bitAt m (s.off + i) = bitAt s.mem (s.off + i) := fun i hi =>
      hbits _ (by omega) (show s.off + i < s.off + 2 * k + 1 by omega)
    have hcode : (s.onBuffer m len).CodeAt k :=
      ⟨hk, fun i hi => (streamBit_congr (hsame i (by omega))).trans (hz i hi),
        (streamBit_congr (hsame k (by omega))).trans hm, hend⟩
    have hval : (s.onBuffer m len).codeValue k = s.codeValue k := by
      have hsuffix : ∀ i < k, bitAt m (s.off + k + 1 + i) = bitAt s.mem (s.off + k + 1 + i) := fun i hi => by
        have := hsame (k + 1 + i) (by omega)
        rwa [← Nat.add_assoc, ← Nat.add_assoc] at this
      exact congrArg (2 ^ k - 1 + ·) (streamValue_congr hsuffix)
    rw [State.take, ue_of_code_bits hcode fun i hi => (hsame i hi).symm ▸ hb i hi, hval]
    rfl

theorem State.finishRow_onBuffer (s : State) (m : Memory) (len : Word) (i : Instr) (v : Word) :
    (s.onBuffer m len).finishRow i v = (s.finishRow i v).onBuffer m len := by
  cases i <;> rfl

/-- One turn of the sequencer that does not raise, on another buffer. -/
theorem step_onBuffer (hh : s.host = []) (he : step s = .next t) (hphase : t.phase ≠ .error)
    (hend : t.off ≤ 8 * len.toNat) (hbits : ∀ j, s.off ≤ j → j < t.off → bitAt m j = bitAt s.mem j) :
    step (s.onBuffer m len) = .next (t.onBuffer m len) := by
  have hh' : (s.onBuffer m len).host = [] := hh
  rcases step_next_of_host_nil hh he with ⟨hb, rfl⟩ | ⟨hb, i, hd, hx⟩
  · exact step_of_not_busy hh' hb
  · rw [Proofs.stepRunsDecodedRow.1 (s.onBuffer m len) i hh' hb hd]
    obtain ⟨_, hrow, h23⟩ := decodeStep_ok hd
    rcases exec_row_next hd hx with ⟨hs, r, hr, rfl⟩ | ⟨hs, v, s', hv, rfl⟩ | ⟨_, e, s', _, rfl⟩
    · rw [h23.mpr hs, exec_s23_of_assemble (s := s.onBuffer m len) hr]
      rfl
    · rw [State.finishRow_off] at hend hbits
      rw [exec_eq_take hrow (hs ∘ h23.mp), show (s.onBuffer m len).cfg = s.cfg from rfl,
        State.take_onBuffer hv hend hbits, OpResult.finish_value, State.finishRow_onBuffer]
    · exact absurd rfl hphase

end

end Sys2Proof.Machine

/-! # The obligation on bits after the cursor -/

namespace Sys2Proof.Proofs

open Sys2Proof Sys2Proof.Machine

/-- Settles O50, by induction on the steps: no step before the last can have failed, and each stays before the last
cursor. -/
theorem bitsAfterTheCursorDoNotMatter : Obligations.BitsAfterTheCursorDoNotMatter := by
  intro s t k m len hh hrun hphase hend hbits
  induction k generalizing s with
  | zero =>
    cases hrun
    rfl
  | succ k ih =>
    obtain ⟨u, hx, hrest⟩ := runSteps_succ_eq_next hrun
    have hhu := host_nil_of_step hh hx
    have hsu := cursorNeverGoesBack s u hh hx
    have hut := off_le_of_runSteps hhu hrest
    have hu : u.phase ≠ .error := fun he => by
      rw [runSteps_of_not_busy hhu (by rw [he]; decide)] at hrest
      cases hrest
      exact hphase he
    have hmem : u.mem = s.mem := mem_eq_of_step hh hx
    have hstep := step_onBuffer hh hx hu (hut.trans hend) fun j h1 h2 => hbits j h1 (by omega)
    have hih := ih u hhu hrest fun j h1 h2 => by rw [hmem]; exact hbits j (by omega) h2
    exact (runSteps_succ_of_step hstep k).trans hih

end Sys2Proof.Proofs

/-! # What an operation sees of the state (10_state.md section 10, 20_memory.md section 4) -/

namespace Sys2Proof.Machine

open Sys2Proof

/-- The two cursors stand at the same place of the same buffer. -/
structure SameCursor (a b : State) : Prop where
  off : b.off = a.off
  len : b.len = a.len
  mem : b.mem = a.mem

/-- The result of an operation, with another state in place of the one it leaves. -/
def OpResult.mapState {α : Type} (f : State → State) : OpResult α → OpResult α
  | .value v s => .value v (f s)
  | .raised k s => .raised k (f s)
  | .fault e => .fault e
  | .refused e => .refused e

section

variable {α : Type} (f : State → State)

@[simp] theorem OpResult.mapState_value (v : α) (s : State) :
    (OpResult.value v s).mapState f = .value v (f s) := rfl

@[simp] theorem OpResult.mapState_raised (k : ErrKind) (s : State) :
    (OpResult.raised k s : OpResult α).mapState f = .raised k (f s) := rfl

end

/-- State `b` with the cursor and the count of `a`: what an operation leaves of `b` when it leaves `a`. -/
def State.withCursorOf (b a : State) : State := (b.setOff a.off).setLz a.lz

section

variable {a b : State} (h : SameCursor a b)

include h

theorem SameCursor.setLz (l l' : BitVec 5) : SameCursor (a.setLz l) (b.setLz l') := ⟨h.off, h.len, h.mem⟩

theorem SameCursor.move (p : Nat) (l l' : BitVec 5) : SameCursor ((a.setOff p).setLz l) ((b.setOff p).setLz l') :=
  ⟨rfl, h.len, h.mem⟩

theorem SameCursor.withCursorOf (hl : b.lz = a.lz) : b.withCursorOf a = b := by
  rw [State.withCursorOf, ← h.off, ← hl]
  rfl

theorem SameCursor.underruns (n : Nat) : b.underruns n = a.underruns n := by
  rw [State.underruns, State.underruns, h.off, h.len]

theorem SameCursor.bits (n k : Nat) (v : Word) : b.bits n k v = a.bits n k v := by
  induction n generalizing k v with
  | zero => rfl
  | succ n ih => simp only [State.bits, State.bit_eq, h.len, h.mem, ih]

theorem SameCursor.setOff_off : b.setOff a.off = b := by
  rw [← h.off]
  rfl

theorem SameCursor.skip (n : Nat) : skip n b = (skip n a).mapState fun a' => b.setOff a'.off := by
  simp only [Machine.skip, h.underruns, h.off]
  split
  · rw [OpResult.mapState_raised, h.setOff_off]
  · rfl

theorem SameCursor.readBits (n : Nat) : readBits n b = (readBits n a).mapState fun a' => b.setOff a'.off := by
  simp only [Machine.readBits, h.underruns, h.off, h.bits]
  split
  · split
    · rw [OpResult.mapState_raised, h.setOff_off]
    · split <;> rfl
  · rfl

end

theorem countZeros_withCursorOf {a b : State} (h : SameCursor a b) (hl : b.lz = a.lz) (left : Nat) :
    countZeros left b = (countZeros left a).mapState b.withCursorOf := by
  induction left generalizing a b with
  | zero =>
    rw [countZeros, countZeros, OpResult.mapState_raised, h.withCursorOf hl]
  | succ left ih =>
    rw [countZeros, countZeros, h.readBits]
    cases hr : readBits 1 a with
    | value v a' =>
      obtain ⟨_, _, rfl, _⟩ := readBit_value hr
      rw [OpResult.mapState_value, OpResult.andThen_value, OpResult.andThen_value]
      split
      · rw [OpResult.mapState_value, State.withCursorOf, State.setOff_lz, ← hl]
        rfl
      · exact ih (h.move (a.off + 1) (a.lz + 1) (b.lz + 1)) (congrArg (· + 1) hl)
    | raised k a' =>
      obtain ⟨_, _, _, _, rfl⟩ := readBits_raised hr
      rw [OpResult.mapState_raised, OpResult.andThen_raised, OpResult.andThen_raised, OpResult.mapState_raised,
        h.setOff_off, h.withCursorOf hl]
    | fault e => rfl
    | refused e => rfl

theorem ueSuffix_withCursorOf {a b : State} (h : SameCursor a b) (hl : b.lz = a.lz) :
    ueSuffix b = (ueSuffix a).mapState b.withCursorOf := by
  simp only [ueSuffix, hl, h.readBits]
  split
  · rw [OpResult.mapState_value, h.withCursorOf hl]
  · cases hr : readBits a.lz.toNat a with
    | value v a' =>
      obtain ⟨_, _, _, _, rfl, _⟩ := readBits_value hr
      rw [OpResult.mapState_value, OpResult.andThen_value, OpResult.andThen_value, OpResult.mapState_value,
        State.withCursorOf, State.setOff_lz, ← hl]
      rfl
    | raised k a' =>
      obtain ⟨_, _, _, _, rfl⟩ := readBits_raised hr
      rw [OpResult.mapState_raised, OpResult.andThen_raised, OpResult.andThen_raised, OpResult.mapState_raised,
        h.setOff_off, h.withCursorOf hl]
    | fault e => rfl
    | refused e => rfl

theorem countZeros_value_frame {left : Nat} {s s' : State} {u : Unit} (h : countZeros left s = .value u s') :
    s'.len = s.len ∧ s'.mem = s.mem := by
  rcases countZeros_cases left s with ⟨k, _, _, _, _, _, hx⟩ | ⟨_, _, _, hx⟩ | ⟨z, _, _, _, _, _, hx⟩ |
    ⟨i, _, _, _, _, _, _, hx⟩ <;> rw [hx] at h <;> cases h
  exact ⟨rfl, rfl⟩

/-- UE sets `LZ` before it counts (R120), so what `LZ` held before does not matter (R27). -/
theorem SameCursor.ue {a b : State} (h : SameCursor a b) : ue b = (ue a).mapState b.withCursorOf := by
  rw [Machine.ue, Machine.ue, countZeros_withCursorOf (h.setLz 0 0) rfl]
  cases hr : countZeros (ueMaxLz + 1) (a.setLz 0) with
  | value u a' =>
    obtain ⟨hlen, hmem⟩ := countZeros_value_frame hr
    have hc : SameCursor a' ((b.setLz 0).withCursorOf a') := ⟨rfl, h.len.trans hlen.symm, h.mem.trans hmem.symm⟩
    exact ueSuffix_withCursorOf hc rfl
  | raised k a' => rfl
  | fault e => rfl
  | refused e => rfl

/-- An element is obtained alike from two cursors at the same place; what becomes of `LZ` is left open. -/
theorem SameCursor.take {a b : State} (h : SameCursor a b) (f : Format) :
    ∃ l : State → BitVec 5, b.take f = (a.take f).mapState fun a' => (b.setOff a'.off).setLz (l a') := by
  cases f with
  | empty => exact ⟨fun _ => b.lz, congrArg (OpResult.value 0) h.setOff_off.symm⟩
  | x n =>
    refine ⟨fun _ => b.lz, ?_⟩
    rw [State.take, State.take, h.skip]
    cases Machine.skip n a <;> rfl
  | u n => exact ⟨fun _ => b.lz, h.readBits n⟩
  | ue => exact ⟨State.lz, h.ue⟩

/-! ## Two runs with the same past since START -/

/-- Two blocks that agree but for `LZ`, the model's own `ret` and `draws`, with no host move to come. -/
structure SameRun (a b : State) : Prop extends SameCursor a b where
  cfg   : b.cfg = a.cfg
  phase : b.phase = a.phase
  err   : b.err = a.err
  step  : b.step = a.step
  x     : b.x = a.x
  out   : b.out = a.out
  hostL : a.host = []
  hostR : b.host = []

theorem follow_congr (i : Instr) {u w : State} (hx : w.x = u.x) (hs : w.step = u.step) : follow i w = follow i u := by
  cases i with
  | s12Chroma => simp only [follow, afterChroma_eq, hx]
  | s16Cwf => simp only [follow, afterCwf_eq, hx]
  | start | readBits | skip | ue | s23Assemble => exact hs
  | _ => rfl

theorem State.writeDest_x_congr {u w : State} (hx : w.x = u.x) (d : Option FieldReg) (v : Word) :
    (w.writeDest d v).x = (u.writeDest d v).x := by
  cases d with
  | none => exact hx
  | some r => rw [State.writeDest_some, State.writeDest_some, State.writeField_x, State.writeField_x, hx]

section

variable {a b : State} (h : SameRun a b)

include h

theorem SameRun.finishRow (p : Nat) (l l' : BitVec 5) (i : Instr) (v : Word) :
    SameRun (((a.setOff p).setLz l).finishRow i v) (((b.setOff p).setLz l').finishRow i v) := by
  have hx := State.writeDest_x_congr (u := (a.setOff p).setLz l) (w := (b.setOff p).setLz l') h.x (destOf i) v
  exact
    { off   := by simp
      len   := by simpa using h.len
      mem   := by simpa using h.mem
      cfg   := by simpa using h.cfg
      phase := by simpa using h.phase
      err   := by simpa using h.err
      step  := follow_congr i hx (by simpa using h.step)
      x     := hx
      out   := by simpa using h.out
      hostL := by simpa using h.hostL
      hostR := by simpa using h.hostR }

/-- One turn of the sequencer keeps them so. -/
theorem SameRun.turn {a' : State} (he : Machine.step a = .next a') :
    ∃ b', Machine.step b = .next b' ∧ SameRun a' b' := by
  rcases step_next_of_host_nil h.hostL he with ⟨hb, rfl⟩ | ⟨hb, i, hd, hx⟩
  · exact ⟨b, step_of_not_busy h.hostR (by rwa [h.phase]), h⟩
  · obtain ⟨_, hrow, h23⟩ := decodeStep_ok hd
    rw [Proofs.stepRunsDecodedRow.1 b i h.hostR (h.phase.trans hb) (by rwa [h.step])]
    rcases exec_row_next hd hx with ⟨hs, r, hr, rfl⟩ | ⟨hs, v, s', hv, rfl⟩ | ⟨hs, e, s', hr, rfl⟩
    · rw [h23.mpr hs]
      exact ⟨_, exec_s23_of_assemble (by rwa [h.x]),
        { h with phase := rfl, out := rfl }⟩
    · obtain ⟨l', ht⟩ := h.take (i.format a.cfg.nalSkipBits.val)
      obtain ⟨p, l, rfl, _⟩ := State.take_value hv
      rw [exec_eq_take hrow (hs ∘ h23.mp), h.cfg, ht, hv]
      exact ⟨_, rfl, h.finishRow p l _ i v⟩
    · obtain ⟨l', ht⟩ := h.take (i.format a.cfg.nalSkipBits.val)
      obtain ⟨p, l, rfl, _⟩ := State.take_raised hr
      rw [exec_eq_take hrow (hs ∘ h23.mp), h.cfg, ht, hr]
      exact ⟨_, rfl, { h with off := rfl, phase := rfl, err := rfl }⟩

theorem SameRun.run {a' : State} {k : Nat} (he : runSteps k a = .next a') :
    ∃ b', runSteps k b = .next b' ∧ SameRun a' b' := by
  induction k generalizing a b with
  | zero =>
    cases he
    exact ⟨b, rfl, h⟩
  | succ k ih =>
    obtain ⟨u, hx, hrun⟩ := runSteps_succ_eq_next he
    obtain ⟨w, hy, hw⟩ := h.turn hx
    obtain ⟨b', hb', hfin⟩ := ih hw hrun
    exact ⟨b', (runSteps_succ_of_step hy k).trans hb', hfin⟩

theorem SameRun.observe : b.observe = a.observe := by simp only [State.observe, h.phase, h.err, h.out]

end

/-- The host's START is taken outside `BUSY`, if the length is one the block can hold. -/
theorem step_of_start {s : State} {len : Word} (hb : s.phase ≠ .busy) (hl : 8 * len.toNat < 2 ^ 32)
    (hh : s.host = [.clock false true len]) : step s = .next (({ s with host := [] } : State).accept len) := by
  rw [Proofs.stepRunsDecodedRow.2.2 s len [] hh]
  rcases exec_start_cases len ({ s with host := [] } : State) with ⟨hbusy, _⟩ | ⟨_, _, hx⟩ | ⟨_, hlong, _⟩
  · exact absurd hbusy hb
  · exact hx
  · omega

end Sys2Proof.Machine

/-! # The obligation on what a parse depends on -/

namespace Sys2Proof.Proofs

open Sys2Proof Sys2Proof.Machine

/-- Settles O49: an accepted START leaves the two blocks alike, and every step after it keeps them so. -/
theorem parseForgetsThePast : Obligations.ParseForgetsThePast := by
  intro s1 s2 t1 len k hb1 hb2 hl hh1 hh2 hcfg hmem hrun
  rw [runSteps_succ_of_step (step_of_start hb1 hl hh1)] at hrun
  have hsame : SameRun (({ s1 with host := [] } : State).accept len) (({ s2 with host := [] } : State).accept len) :=
    ⟨⟨rfl, rfl, hmem.symm⟩, hcfg.symm, rfl, rfl, rfl, rfl, rfl, rfl, rfl⟩
  obtain ⟨t2, hrun2, ht⟩ := hsame.run hrun
  exact ⟨t2, (runSteps_succ_of_step (step_of_start hb2 hl hh2) k).trans hrun2, ht.observe, ht.step, ht.off, ht.x⟩

end Sys2Proof.Proofs

/-! # The steps and the parse as one function (42_sps_parser.md R172) -/

namespace Sys2Proof.Machine

open Sys2Proof

/-- A run ends as the result of the parse says: the record in `DONE`, the kind in `ERROR`, or the same fault. -/
def EndsAs (o : Host.Outcome State Fault Refusal) : OpResult SpsInfo → Prop
  | .value r _ => ∃ t, o = .next t ∧ t.phase = .done ∧ t.err = none ∧ t.out = some r
  | .raised k _ => ∃ t, o = .next t ∧ t.phase = .error ∧ t.err = some k ∧ t.out = none
  | .fault f => o = .fault f
  | .refused _ => False

/-- The parse's cursor `c` has come to step `st` with the elements in `f`, and the running block `s` stands there
too. -/
structure Tracks (st : StepName) (f : Fields) (c s : State) : Prop extends SameCursor c s where
  cfg   : s.cfg = c.cfg
  host  : s.host = []
  phase : s.phase = .busy
  err   : s.err = none
  out   : s.out = none
  step  : s.step = st
  x     : s.x = f

/-- The registers after a row has written its destination. -/
def Fields.writeDest (f : Fields) (d : Option FieldReg) (v : Word) : Fields :=
  match d with
  | some r => f.write r v
  | none => f

theorem State.writeDest_x (s : State) (d : Option FieldReg) (v : Word) : (s.writeDest d v).x = s.x.writeDest d v := by
  cases d <;> rfl

theorem EndsAs.of_raised {s : State} (hh : s.host = []) (ho : s.out = none) (e : ErrKind) (c : State) (m : Nat) :
    EndsAs (runSteps m (s.abort e)) (.raised e c) := by
  rw [runSteps_of_not_busy (s := s.abort e) hh (by simp)]
  exact ⟨_, rfl, rfl, rfl, ho⟩

section

variable {st : StepName} {f : Fields} {c s : State} (h : Tracks st f c s) {i : Instr} (hd : decodeStep st.code = .ok i)
  (h23 : st ≠ .s23) {nxt : Fields → StepName} (hnxt : ∀ u, follow i u = nxt u.x)

include h hnxt in
theorem Tracks.finishRow (p : Nat) (l l' : BitVec 5) (v : Word) :
    Tracks (nxt (f.writeDest (destOf i) v)) (f.writeDest (destOf i) v) ((c.setOff p).setLz l)
      (((s.setOff p).setLz l').finishRow i v) where
  off   := by simp
  len   := by simpa using h.len
  mem   := by simpa using h.mem
  cfg   := by simpa using h.cfg
  host  := by simpa using h.host
  phase := by simpa using h.phase
  err   := by simpa using h.err
  out   := by simpa using h.out
  step  := by rw [State.finishRow_step, hnxt, State.writeDest_x, State.setLz_x, State.setOff_x, h.x]
  x     := by rw [State.finishRow_x, State.writeDest_x, State.setLz_x, State.setOff_x, h.x]

include h hd h23 hnxt

/-- A row and the operation the parse has in its place end alike if they end alike from the successor on. -/
theorem Tracks.row {fmt : Format} {m : Nat} {g : Word → State → OpResult SpsInfo}
    (hfmt : i.format c.cfg.nalSkipBits.val = fmt)
    (hg : ∀ v c' s', c.take fmt = .value v c' →
      Tracks (nxt (f.writeDest (destOf i) v)) (f.writeDest (destOf i) v) c' s' → EndsAs (runSteps m s') (g v c')) :
    EndsAs (runSteps (m + 1) s) ((c.take fmt).andThen g) := by
  obtain ⟨_, hrow, hi23⟩ := decodeStep_ok hd
  obtain ⟨l, htake⟩ := h.take fmt
  have hturn : Machine.step s = exec i s := Proofs.stepRunsDecodedRow.1 s i h.host h.phase (by rwa [h.step])
  have hexec : exec i s = (s.take fmt).finish fun v s' => s'.finishRow i v := by
    rw [exec_eq_take hrow (h23 ∘ hi23.mp), h.cfg, hfmt]
  rw [htake] at hexec
  cases hc : c.take fmt with
  | value v c' =>
    rw [hc] at hexec
    obtain ⟨p, l0, rfl, _⟩ := State.take_value hc
    rw [OpResult.andThen_value, runSteps_succ_of_step (hturn.trans hexec)]
    exact hg v _ _ hc (h.finishRow hnxt p l0 _ v)
  | raised k c' =>
    rw [hc] at hexec
    rw [OpResult.andThen_raised, runSteps_succ_of_step (hturn.trans hexec)]
    exact EndsAs.of_raised (s := (s.setOff c'.off).setLz (l c')) h.host h.out k c' m
  | fault e =>
    rw [hc] at hexec
    exact runSteps_succ_of_fault (hturn.trans hexec) m
  | refused r =>
    rw [hc] at hexec
    exact absurd hexec (exec_stepRow_not_refused hrow)

theorem Tracks.skips {n m : Nat} {g : State → OpResult SpsInfo} (hfmt : i.format c.cfg.nalSkipBits.val = .x n)
    (hdest : destOf i = none)
    (hg : ∀ c' s', Tracks (nxt f) f c' s' → EndsAs (runSteps m s') (g c')) :
    EndsAs (runSteps (m + 1) s) ((skip n c).andThen fun _ c' => g c') := by
  have hrule := h.row hd h23 hnxt (m := m) (g := fun _ c' => g c') hfmt fun v c' s' _ ht =>
    hg c' s' (by rwa [hdest] at ht)
  have hassoc : (c.take (.x n)).andThen (fun _ c' => g c') = (skip n c).andThen fun _ c' => g c' := by
    rw [State.take]
    cases skip n c <;> rfl
  rwa [hassoc] at hrule

theorem Tracks.reads {n m : Nat} {g : Word → State → OpResult SpsInfo} (hfmt : i.format c.cfg.nalSkipBits.val = .u n)
    (hg : ∀ v c' s', v.toNat < 2 ^ n → Tracks (nxt (f.writeDest (destOf i) v)) (f.writeDest (destOf i) v) c' s' →
      EndsAs (runSteps m s') (g v c')) :
    EndsAs (runSteps (m + 1) s) ((readBits n c).andThen g) :=
  h.row hd h23 hnxt hfmt fun v c' s' hv ht =>
    have ⟨_, _, _, _, _, _, hlt⟩ := readBits_value hv
    hg v c' s' hlt ht

theorem Tracks.decodes {m : Nat} {g : Word → State → OpResult SpsInfo} (hfmt : i.format c.cfg.nalSkipBits.val = .ue)
    (hg : ∀ v c' s', Tracks (nxt (f.writeDest (destOf i) v)) (f.writeDest (destOf i) v) c' s' →
      EndsAs (runSteps m s') (g v c')) :
    EndsAs (runSteps (m + 1) s) ((ue c).andThen g) :=
  h.row hd h23 hnxt hfmt fun v c' s' _ ht => hg v c' s' ht

end

/-- S23: the record of the parse is that of the registers. -/
theorem Tracks.assembles {f : Fields} {c s : State} (h : Tracks .s23 f c s) {r : SpsInfo} (hr : assemble f = .ok r)
    (m : Nat) : EndsAs (runSteps (m + 1) s) (.value r c) := by
  have hturn : Machine.step s = .next (s.complete r) := by
    rw [Proofs.stepRunsDecodedRow.1 s .s23Assemble h.host h.phase (by rw [h.step]; rfl),
      exec_s23_of_assemble (by rwa [h.x])]
  rw [runSteps_succ_of_step hturn, runSteps_of_not_busy (s := s.complete r) h.host (by simp)]
  exact ⟨_, rfl, rfl, h.err, rfl⟩

/-- From S21 on, the size being known: the bit depths and the record. -/
theorem Tracks.from_s21 {f : Fields} {c s : State} (h : Tracks .s21 f c s) {rec : Word → Word → SpsInfo}
    (hrec : ∀ bl bc, assemble { f with bdlm8 := some bl, bdcm8 := some bc } = .ok (rec bl bc)) (m : Nat) :
    EndsAs (runSteps (m + 3) s)
      ((ue c).andThen fun bl c => (ue c).andThen fun bc c => .value (rec bl bc) c) := by
  refine h.decodes rfl nofun (nxt := fun _ => .s22) (fun _ => rfl) rfl fun bl c s h => ?_
  refine h.decodes rfl nofun (nxt := fun _ => .s23) (fun _ => rfl) rfl fun bc c s h => ?_
  exact h.assembles (hrec bl bc) m

theorem OpResult.andThen_assoc {α β γ : Type} (r : OpResult α) (f : α → State → OpResult β)
    (g : β → State → OpResult γ) : (r.andThen f).andThen g = r.andThen fun v s => (f v s).andThen g := by
  cases r <;> rfl

/-- A flag read as one bit is 1 as a word iff it is 1 in its register. -/
theorem setWidth_one_eq_one_iff {v : Word} (h : v.toNat < 2 ^ 1) : v.setWidth 1 = 1 ↔ v = 1 := by
  rw [← BitVec.toNat_inj, ← BitVec.toNat_inj, BitVec.toNat_setWidth, Nat.mod_eq_of_lt h]
  rfl

section

variable (ps : BitVec 2) (tf : BitVec 1) (pi : BitVec 5) (li : BitVec 8) (cf w h : Word)

/-- The registers after S11: the profile and the level. -/
def Fields.afterLevel : Fields :=
  { Fields.empty with pspace := some ps, tier := some tf, pidc := some pi, level := some li }

/-- The registers after S12: the chroma format besides. -/
def Fields.afterChroma : Fields := { Fields.afterLevel ps tf pi li with chroma := some cf }

/-- The registers after S15: the picture size besides. -/
def Fields.afterPicture : Fields :=
  { Fields.afterChroma ps tf pi li cf with picw := some w, pich := some h }

variable {ps tf pi li cf w h} {c s : State}

/-- From S16 on: the flag, the window if it is 1, the bit depths, the record. -/
theorem Tracks.from_s16 (ht : Tracks .s16 (Fields.afterPicture ps tf pi li cf w h) c s) (m : Nat) :
    EndsAs (runSteps (m + 8) s)
      ((readBits 1 c).andThen fun f c => (parseSize w h f c).andThen fun size c =>
        (ue c).andThen fun bl c => (ue c).andThen fun bc c =>
          .value ⟨size.1, size.2, ps, tf, pi, li, cf, bitDepth bl, bitDepth bc⟩ c) := by
  refine ht.reads rfl nofun (nxt := fun f => if f.cwf = some 1 then .s17 else .s21) afterCwf_eq rfl
    fun f c s hf ht => ?_
  have hflag : ((Fields.afterPicture ps tf pi li cf w h).writeDest (destOf .s16Cwf) f).cwf = some 1 ↔ f = 1 :=
    (Option.some.injEq ..).to_iff.trans (setWidth_one_eq_one_iff hf)
  by_cases hone : f = 1
  · rw [if_pos (hflag.mpr hone)] at ht
    subst hone
    rw [parseSize, if_pos rfl]
    simp only [OpResult.andThen_assoc, OpResult.andThen_value]
    refine ht.decodes rfl nofun (nxt := fun _ => .s18) (fun _ => rfl) rfl fun l c s ht => ?_
    refine ht.decodes rfl nofun (nxt := fun _ => .s19) (fun _ => rfl) rfl fun r c s ht => ?_
    refine ht.decodes rfl nofun (nxt := fun _ => .s20) (fun _ => rfl) rfl fun t c s ht => ?_
    refine ht.decodes rfl nofun (nxt := fun _ => .s21) (fun _ => rfl) rfl fun b c s ht => ?_
    exact ht.from_s21 (fun bl bc => assemble_of_pictureSize (pictureSize_of_window rfl rfl rfl rfl rfl rfl rfl)
      rfl rfl rfl rfl rfl rfl rfl) m
  · rw [if_neg (mt hflag.mp hone)] at ht
    rw [parseSize, if_neg hone, OpResult.andThen_value]
    have hzero : f.setWidth 1 = 0 :=
      (BitVec.eq_zero_or_eq_one _).resolve_right (mt (setWidth_one_eq_one_iff hf).mp hone)
    exact ht.from_s21 (fun bl bc => assemble_of_pictureSize (pictureSize_of_no_window (congrArg some hzero) rfl rfl)
      rfl rfl rfl rfl rfl rfl rfl) (m + 4)

/-- From S14 on: the picture size, then as from S16. -/
theorem Tracks.from_s14 (ht : Tracks .s14 (Fields.afterChroma ps tf pi li cf) c s) (m : Nat) :
    EndsAs (runSteps (m + 10) s)
      ((ue c).andThen fun w c => (ue c).andThen fun h c =>
        (readBits 1 c).andThen fun f c => (parseSize w h f c).andThen fun size c =>
        (ue c).andThen fun bl c => (ue c).andThen fun bc c =>
          .value ⟨size.1, size.2, ps, tf, pi, li, cf, bitDepth bl, bitDepth bc⟩ c) := by
  refine ht.decodes rfl nofun (nxt := fun _ => .s15) (fun _ => rfl) rfl fun w c s ht => ?_
  refine ht.decodes rfl nofun (nxt := fun _ => .s16) (fun _ => rfl) rfl fun h c s ht => ?_
  exact Tracks.from_s16 (w := w) (h := h) ht m

/-- From S12 on: the chroma format, the plane flag if it is 3, then as from S14. -/
theorem Tracks.from_s12 (ht : Tracks .s12 (Fields.afterLevel ps tf pi li) c s) :
    EndsAs (runSteps 12 s)
      ((ue c).andThen fun cf c => (parseColourPlane cf c).andThen fun _ c =>
        (ue c).andThen fun w c => (ue c).andThen fun h c =>
        (readBits 1 c).andThen fun f c => (parseSize w h f c).andThen fun size c =>
        (ue c).andThen fun bl c => (ue c).andThen fun bc c =>
          .value ⟨size.1, size.2, ps, tf, pi, li, cf, bitDepth bl, bitDepth bc⟩ c) := by
  refine ht.decodes rfl nofun (nxt := fun f => if f.chroma = some 3 then .s13 else .s14) afterChroma_eq rfl
    fun cf c s ht => ?_
  have hchroma : ((Fields.afterLevel ps tf pi li).writeDest (destOf .s12Chroma) cf).chroma = some 3 ↔ cf = 3 :=
    (Option.some.injEq ..).to_iff
  by_cases hthree : cf = 3
  · rw [if_pos (hchroma.mpr hthree)] at ht
    rw [parseColourPlane, if_pos hthree, OpResult.andThen_assoc]
    refine ht.reads rfl nofun (nxt := fun _ => .s14) (fun _ => rfl) rfl fun _ c s _ ht => ?_
    exact Tracks.from_s14 ht 0
  · rw [if_neg (mt hchroma.mp hthree)] at ht
    rw [parseColourPlane, if_neg hthree, OpResult.andThen_value]
    exact Tracks.from_s14 ht 1

/-- The listing of R172, element by element: the block's row and the parse's operation obtain the same. -/
theorem Tracks.from_s1 (ht : Tracks .s1 Fields.empty c s) : EndsAs (runSteps 23 s) (parseFrom c) := by
  refine ht.skips rfl nofun (nxt := fun _ => .s2) (fun _ => rfl) rfl rfl fun c s ht => ?_
  refine ht.reads rfl nofun (nxt := fun _ => .s3) (fun _ => rfl) rfl fun _ c s _ ht => ?_
  refine ht.reads rfl nofun (nxt := fun _ => .s4) (fun _ => rfl) rfl fun _ c s _ ht => ?_
  refine ht.reads rfl nofun (nxt := fun _ => .s5) (fun _ => rfl) rfl fun _ c s _ ht => ?_
  refine ht.reads rfl nofun (nxt := fun _ => .s6) (fun _ => rfl) rfl fun ps c s _ ht => ?_
  refine ht.reads rfl nofun (nxt := fun _ => .s7) (fun _ => rfl) rfl fun tf c s _ ht => ?_
  refine ht.reads rfl nofun (nxt := fun _ => .s8) (fun _ => rfl) rfl fun pi c s _ ht => ?_
  refine ht.skips rfl nofun (nxt := fun _ => .s9) (fun _ => rfl) rfl rfl fun c s ht => ?_
  refine ht.skips rfl nofun (nxt := fun _ => .s10) (fun _ => rfl) rfl rfl fun c s ht => ?_
  refine ht.reads rfl nofun (nxt := fun _ => .s11) (fun _ => rfl) rfl fun li c s _ ht => ?_
  refine ht.decodes rfl nofun (nxt := fun _ => .s12) (fun _ => rfl) rfl fun _ c s ht => ?_
  exact Tracks.from_s12 ht

end

end Sys2Proof.Machine

/-! # The obligation on the parse -/

namespace Sys2Proof.Proofs

open Sys2Proof Sys2Proof.Machine

/-- Settles O48: an accepted START puts the block where the parse begins, and `Tracks.from_s1` takes both to the end. -/
theorem stepsRefineTheParse : Obligations.StepsRefineTheParse := by
  intro s len hb hl hh
  have htracks : Tracks .s1 Fields.empty (cursor s.cfg s.mem len) (({ s with host := [] } : State).accept len) :=
    ⟨⟨rfl, rfl, rfl⟩, rfl, rfl, rfl, rfl, rfl, rfl, rfl⟩
  have hends := htracks.from_s1
  rw [← runSteps_succ_of_step (step_of_start hb hl hh)] at hends
  rw [parse]
  cases hp : parseFrom (cursor s.cfg s.mem len) <;> rw [hp] at hends <;> exact hends

end Sys2Proof.Proofs

/-! # A buffer too short for the fixed part (42_sps_parser.md section 11) -/

namespace Sys2Proof.Machine

open Sys2Proof

/-- Every step of the fixed part starts at or before the start of S11. -/
theorem prefixOffset_le {N p : Nat} {st : StepName} (h : prefixOffset N st = some p) : p ≤ N + 72 := by
  cases st <;> cases h <;> omega

theorem StepName.eq_s11_of_index {st : StepName} (h : st.index = 11) : st = .s11 := by
  cases st <;> first | rfl | cases h

/-- S1 to S10 obtain an element of fixed length and go on to the step that starts where it ends. -/
theorem fixedPart_row {st : StepName} {N p : Nat} (hp : prefixOffset N st = some p) (h11 : st ≠ .s11) :
    ∃ i n, decodeStep st.code = .ok i ∧ i ≠ .s23Assemble ∧ st.index ≤ 10 ∧
      (i.format N = .x n ∨ i.format N = .u n ∧ 1 ≤ n ∧ n ≤ 32) ∧
      ∀ u, prefixOffset N (follow i u) = some (p + n) ∧ (follow i u).index = st.index + 1 := by
  cases st with
  | s11 => exact absurd rfl h11
  | s1 | s8 | s9 =>
    cases hp
    exact ⟨_, _, rfl, nofun, by decide, .inl rfl,
      fun _ => ⟨by simp [follow, prefixOffset, compatSkipBits, constraintSkipBits], rfl⟩⟩
  | s2 | s3 | s4 | s5 | s6 | s7 | s10 =>
    cases hp
    exact ⟨_, _, rfl, nofun, by decide, .inr ⟨rfl, by decide, by decide⟩,
      fun _ => ⟨by simp [follow, prefixOffset], rfl⟩⟩
  | _ => cases hp

/-- An element of fixed length on a buffer that is there. -/
theorem State.take_fixed {s : State} {f : Format} {n : Nat} (hf : f = .x n ∨ f = .u n ∧ 1 ≤ n ∧ n ≤ 32)
    (hp : s.Present) :
    (s.off + n ≤ 8 * s.len.toNat ∧ ∃ v, s.take f = .value v (s.setOff (s.off + n))) ∨
    (8 * s.len.toNat < s.off + n ∧ s.take f = .raised .bufferUnderrun s) := by
  rcases hf with rfl | ⟨rfl, h1, h32⟩
  · rcases skip_cases n s with ⟨hu, hx⟩ | ⟨hl, hx⟩ <;> rw [State.take, hx]
    · exact .inr ⟨hu, rfl⟩
    · exact .inl ⟨hl, 0, rfl⟩
  · by_cases hl : s.off + n ≤ 8 * s.len.toNat
    · exact .inl ⟨hl, _, readBits_present h1 h32 hl hp⟩
    · exact .inr ⟨by omega, readBits_underrun h1 h32 (by omega)⟩

/-- A parse running on its own in the fixed part, at the offset of its step (R236), on a buffer that is there. -/
structure InFixedPart (N : Nat) (len : Word) (s : State) (p : Nat) : Prop where
  host    : s.host = []
  phase   : s.phase = .busy
  present : s.Present
  skip    : s.cfg.nalSkipBits.val = N
  bytes   : s.len = len
  step    : prefixOffset N s.step = some p
  off     : s.off = p
  fits    : p ≤ 8 * len.toNat

/-- The parse has failed before S11, at the step whose element the end of the buffer cuts. -/
structure FailedInFixedPart (N len : Nat) (t : State) : Prop where
  phase : t.phase = .error
  err   : t.err = some .bufferUnderrun
  first : 1 ≤ t.step.index
  last  : t.step.index ≤ 10
  short : 8 * len < N + 72
  cut   : ∃ p i, prefixOffset N t.step = some p ∧ decodeStep t.step.code = .ok i ∧ p ≤ 8 * len ∧
    8 * len < p + (i.format N).maxBits

section

variable {N : Nat} {len : Word} {s : State} {p : Nat} (h : InFixedPart N len s p)

include h

/-- One turn in the fixed part before S11: on to the next step, or the failure. -/
theorem InFixedPart.turn (h11 : s.step ≠ .s11) :
    ∃ t, Machine.step s = .next t ∧
      ((∃ q, InFixedPart N len t q ∧ t.step.index = s.step.index + 1) ∨ FailedInFixedPart N len.toNat t) := by
  obtain ⟨i, n, hd, hi23, h10, hf, hnext⟩ := fixedPart_row h.step h11
  obtain ⟨h1, hrow, _⟩ := decodeStep_ok hd
  have hturn := (Proofs.stepRunsDecodedRow.1 s i h.host h.phase hd).trans (exec_eq_take hrow hi23)
  rw [h.skip] at hturn
  rcases State.take_fixed hf h.present with ⟨hfit, v, hv⟩ | ⟨hu, hr⟩
  · rw [hv] at hturn
    obtain ⟨hq, hindex⟩ := hnext ((s.setOff (s.off + n)).writeDest (destOf i) v)
    rw [h.off, h.bytes] at hfit
    refine ⟨_, hturn, .inl ⟨p + n, ?_, hindex⟩⟩
    exact
      { host    := by simpa using h.host
        phase   := by simpa using h.phase
        present := by simpa [State.Present] using h.present
        skip    := by simpa using h.skip
        bytes   := by simpa using h.bytes
        step    := hq
        off     := by simp [h.off]
        fits    := hfit }
  · rw [hr] at hturn
    have hmax : (i.format N).maxBits = n := by rcases hf with hf | ⟨hf, _⟩ <;> rw [hf] <;> rfl
    rw [h.off, h.bytes] at hu
    have hend := prefixOffset_le (hnext s).1
    exact ⟨_, hturn, .inr ⟨rfl, rfl, h1, h10, by omega, p, i, h.step, hd, h.fits, by omega⟩⟩

/-- Left alone in the fixed part, a parse fails there or comes to S11. -/
theorem InFixedPart.run {d : Nat} (hd : s.step.index + d = 11) :
    (∃ k t, k ≤ d ∧ runSteps k s = .next t ∧ FailedInFixedPart N len.toNat t) ∨
    (∃ t, runSteps d s = .next t ∧ InFixedPart N len t (N + 72) ∧ t.step = .s11) := by
  induction d generalizing s p with
  | zero =>
    have h11 : s.step = .s11 := StepName.eq_s11_of_index hd
    have hp := h.step
    rw [h11] at hp
    cases hp
    exact .inr ⟨s, rfl, h, h11⟩
  | succ d ih =>
    have h11 : s.step ≠ .s11 := fun hs => by
      rw [hs] at hd
      exact absurd hd (by simp only [StepName.index]; omega)
    obtain ⟨t, hx, ⟨q, ht, hindex⟩ | hfail⟩ := h.turn h11
    · rcases ih ht (by omega) with ⟨k, u, hk, hrun, hu⟩ | ⟨u, hrun, hu⟩
      · exact .inl ⟨k + 1, u, by omega, (runSteps_succ_of_step hx k).trans hrun, hu⟩
      · exact .inr ⟨u, (runSteps_succ_of_step hx d).trans hrun, hu⟩
    · exact .inl ⟨1, t, by omega, runSteps_succ_of_step hx 0, hfail⟩

end

/-- The table of 42_sps_parser.md section 11: the step that fails at the default `NAL_SKIP_BITS`. -/
theorem FailedInFixedPart.step_of_default {len : Nat} {t : State} (h : FailedInFixedPart 32 len t) :
    t.step =
      if len ≤ 3 then .s1 else if len = 4 then .s2 else if len = 5 then .s5
      else if len ≤ 9 then .s8 else if len ≤ 11 then .s9 else .s10 := by
  obtain ⟨p, i, hp, hd, hlo, hhi⟩ := h.cut
  have hlast := h.last
  cases hs : t.step with
  | s1 | s2 | s3 | s4 | s5 | s6 | s7 | s8 | s9 | s10 =>
    rw [hs] at hp hd
    cases hp
    cases hd
    simp only [Instr.format, Format.maxBits, compatSkipBits, constraintSkipBits] at hhi
    split_ifs <;> first | rfl | omega
  | s11 =>
    rw [hs] at hlast
    exact absurd hlast (by decide)
  | _ =>
    rw [hs] at hp
    cases hp

theorem runSteps_add {s t : State} {k : Nat} (h : runSteps k s = .next t) (m : Nat) :
    runSteps (k + m) s = runSteps m t := by
  induction k generalizing s with
  | zero =>
    cases h
    rw [Nat.zero_add]
  | succ k ih =>
    obtain ⟨u, hx, hrun⟩ := runSteps_succ_eq_next h
    rw [Nat.add_right_comm, runSteps_succ_of_step hx, ih hrun]

end Sys2Proof.Machine

/-! # The obligation on truncated buffers -/

namespace Sys2Proof.Proofs

open Sys2Proof Sys2Proof.Machine

/-- Settles O51: from START the parse fails in the fixed part or comes to S11, as the length says; at S11 a buffer of 13
bytes has no bit left. -/
theorem truncatedFixedPartFails : Obligations.TruncatedFixedPartFails := by
  intro s len hb hh hp
  have start : 8 * len.toNat < 2 ^ 32 →
      ∃ u, step s = .next u ∧ InFixedPart s.cfg.nalSkipBits.val len u 0 ∧ u.step = .s1 :=
    fun hl => ⟨_, step_of_start hb hl hh, ⟨rfl, rfl, hp, rfl, rfl, rfl, rfl, Nat.zero_le _⟩, rfl⟩
  refine ⟨fun hshort => ?_, fun hcfg h13 => ?_⟩
  · have hskip := s.cfg.nalSkipBits.isLt
    obtain ⟨u, hx, hu, hs1⟩ := start (by omega)
    rcases hu.run (d := 10) (by rw [hs1]; rfl) with ⟨k, t, hk, hrun, ht⟩ | ⟨t, _, ht, _⟩
    · refine ⟨k + 1, t, by omega, (runSteps_succ_of_step hx k).trans hrun, ht.phase, ht.err, ht.first,
        ht.last, fun hcfg => ?_⟩
      rw [hcfg] at ht
      exact ht.step_of_default
    · have := ht.fits
      omega
  · obtain ⟨u, hx, hu, hs1⟩ := start (by omega)
    have hskip : s.cfg.nalSkipBits.val = 32 := by rw [hcfg]; rfl
    rw [hskip] at hu
    rcases hu.run (d := 10) (by rw [hs1]; rfl) with ⟨k, t, _, _, ht⟩ | ⟨t, hrun, ht, hs11⟩
    · have := ht.short
      omega
    · have hcount : t.CountUnderrunAt 0 := ⟨by omega, nofun, by rw [ht.off, ht.bytes]; omega⟩
      obtain ⟨_, _, hunder, _⟩ := pictureSizeSteps.1 t ht.present
      have hturn := (stepRunsDecodedRow.1 t .s11Ue ht.host ht.phase (by rw [hs11]; rfl)).trans (hunder 0 hcount)
      have hrun12 : runSteps 12 s = runSteps 1 t := (runSteps_succ_of_step hx 11).trans (runSteps_add hrun 1)
      exact ⟨_, hrun12.trans (runSteps_succ_of_step hturn 0), rfl, rfl, hs11, ht.off⟩

end Sys2Proof.Proofs
